-- ==== Sys2Proof/Word.lean ====
section
/-! DEFINITION. The word types of the SCCA execution core (spec 00_scope.md R7, R13): every datum is one unsigned
byte, and the program counter alone is wider. -/

namespace Sys2Proof

/-- A memory cell, a register, an operand byte, an immediate: 8 bits, unsigned (R13). -/
abbrev Byte := BitVec 8

/-- The program counter: 9 bits, so that it can hold 256 (R24). -/
abbrev PcWord := BitVec 9

/-- The index of one of the eight general registers (R21). -/
abbrev RegIndex := Fin 8

end Sys2Proof
end

