-- ==== Sys2Proof/Config.lean ====
section
/-! DEFINITION. The parameters of the core (spec 00_scope.md R7). IMAGE and OUT_SEP are arguments of `launch` and
`sinkText`; SP_INIT is an argument of `State.resetWith`, whose default stands here. The hardware leaves no value free
(93_implementation_defined.md section 1), so there is no opaque constant. -/

namespace Sys2Proof.Config

/-- MEM_SIZE: the number of memory cells (R7, R50). -/
abbrev memSize : Nat := 256

/-- SP_INDEX: the register that is the stack pointer (R7, R22). -/
abbrev spIndex : RegIndex := 7

/-- The default of SP_INIT, the reset value of register 7 (R7, R202). DESIGN CHOICE: log entry 3. -/
abbrev spInitDefault : Byte := 244

end Sys2Proof.Config
end

