-- ==== Sys2Proof/Syntax.lean ====
section
/-! DEFINITION. The instructions of the core, one constructor per row of spec/opcode_table.json (30_encoding.md R86).
An operand is what the step's operand latch holds: a byte, or ABSENT where its address lies above 255
(40_fetch_decode_execute.md R111). Whether it is present and in range is checked where the instruction uses it (R112). -/

namespace Sys2Proof

/-- The content of an operand latch (R111). -/
inductive Operand where
  /-- ABSENT: the operand's address is above 255. -/
  | absent
  /-- The operand byte, whole and unsigned (R87, R88). -/
  | byte (b : Byte)
  deriving DecidableEq, Repr

/-- The twelve instructions (R86), each with the operand latches its format defines: none for format Z, one for R, two
for RR and RI (R81 to R84). -/
inductive Instr where
  /-- HLT, format Z: halt (R113). -/
  | hlt
  /-- LDI r, v, format RI: load immediate (R160). -/
  | ldi (opA opB : Operand)
  /-- PRN r, format R: print a register (R161). -/
  | prn (opA : Operand)
  /-- MUL a, b, format RR: multiply (R130). -/
  | mul (opA opB : Operand)
  /-- POP r, format R: pop into a register (R141). -/
  | pop (opA : Operand)
  /-- PUSH r, format R: push a register (R140). -/
  | push (opA : Operand)
  /-- RET, format Z: return from subroutine (R143). -/
  | ret
  /-- CALL r, format R: call the subroutine whose address is in a register (R142). -/
  | call (opA : Operand)
  /-- JMP r, format R: jump (R150). -/
  | jmp (opA : Operand)
  /-- JEQ r, format R: jump if equal (R151). -/
  | jeq (opA : Operand)
  /-- JNE r, format R: jump if not equal (R152). -/
  | jne (opA : Operand)
  /-- CMP a, b, format RR: compare (R131). -/
  | cmp (opA opB : Operand)
  deriving DecidableEq, Repr

end Sys2Proof
end

