-- ==== Sys2Proof/WellFormed.lean ====
section
/-! DEFINITION. Which instructions are well formed: every operand the format defines is present, and every register
operand is 0 to 7 (30_encoding.md R87, 40_fetch_decode_execute.md R112). An instruction that is not well formed raises
OutOfBounds when it executes. -/

namespace Sys2Proof

/-- The operand is a register index 0 to 7. -/
def Operand.isRegister : Operand → Bool
  | .absent => false
  | .byte b => decide (b.toNat ≤ 7)

/-- The operand is present; every byte is a legal immediate (R88). -/
def Operand.isPresent : Operand → Bool
  | .absent => false
  | .byte _ => true

/-- Every operand is present and every register operand in range. -/
def Instr.wellFormed : Instr → Bool
  | .hlt => true
  | .ldi a v => a.isRegister && v.isPresent
  | .prn a => a.isRegister
  | .mul a b => a.isRegister && b.isRegister
  | .pop a => a.isRegister
  | .push a => a.isRegister
  | .ret => true
  | .call a => a.isRegister
  | .jmp a => a.isRegister
  | .jeq a => a.isRegister
  | .jne a => a.isRegister
  | .cmp a b => a.isRegister && b.isRegister

end Sys2Proof
end

