-- ==== Sys2Proof/Decode.lean ====
section
/-! DEFINITION. Decoding and encoding (30_encoding.md R80 to R92). The opcode byte is compared, as a whole byte, with
twelve literals (R85); no bit field is extracted and no operand is examined here. -/

namespace Sys2Proof

/-! The twelve literals of R86. -/

abbrev opHlt : Byte := 0x01
abbrev opLdi : Byte := 0x82
abbrev opPrn : Byte := 0x47
abbrev opMul : Byte := 0xA2
abbrev opPop : Byte := 0x46
abbrev opPush : Byte := 0x45
abbrev opRet : Byte := 0x11
abbrev opCall : Byte := 0x50
abbrev opJmp : Byte := 0x54
abbrev opJeq : Byte := 0x55
abbrev opJne : Byte := 0x56
abbrev opCmp : Byte := 0xA7

/-- The step's three latches, filled by the fetch and used within the same step only (10_state.md R35). -/
structure Latches where
  /-- IR: the opcode byte. -/
  ir : Byte
  /-- The byte at pc + 1. -/
  opA : Operand
  /-- The byte at pc + 2. -/
  opB : Operand
  deriving DecidableEq, Repr

/-- Why bytes are no instruction. -/
inductive Reject where
  /-- There is no opcode byte: the address is above 255 (R110). -/
  | noOpcode
  /-- The opcode byte equals none of the twelve literals (R91). -/
  | unknownOpcode (b : Byte)
  deriving DecidableEq, Repr

/-- What the decoder answers. -/
inductive Decoded where
  | instr (i : Instr)
  | reject (r : Reject)
  deriving DecidableEq, Repr

/-- The instruction the latches select (R85, R110): whole-byte equality of the opcode byte. -/
def decode (l : Latches) : Decoded :=
  if l.ir = opHlt then .instr .hlt
  else if l.ir = opLdi then .instr (.ldi l.opA l.opB)
  else if l.ir = opPrn then .instr (.prn l.opA)
  else if l.ir = opMul then .instr (.mul l.opA l.opB)
  else if l.ir = opCmp then .instr (.cmp l.opA l.opB)
  else if l.ir = opPush then .instr (.push l.opA)
  else if l.ir = opPop then .instr (.pop l.opA)
  else if l.ir = opCall then .instr (.call l.opA)
  else if l.ir = opRet then .instr .ret
  else if l.ir = opJmp then .instr (.jmp l.opA)
  else if l.ir = opJeq then .instr (.jeq l.opA)
  else if l.ir = opJne then .instr (.jne l.opA)
  else .reject (.unknownOpcode l.ir)

/-- The operand latch filled from the head of a byte list, ABSENT where the list has ended. -/
def operandOfBytes : List Byte → Operand
  | [] => .absent
  | b :: _ => .byte b

/-- Decoding a list of bytes at ascending addresses, opcode first (R56, R80); total on any list. -/
def decodeBytes : List Byte → Decoded
  | [] => .reject .noOpcode
  | b :: rest => decode ⟨b, operandOfBytes rest, operandOfBytes rest.tail⟩

/-- The opcode byte of an instruction (R86). -/
def Instr.opcode : Instr → Byte
  | .hlt => opHlt
  | .ldi _ _ => opLdi
  | .prn _ => opPrn
  | .mul _ _ => opMul
  | .pop _ => opPop
  | .push _ => opPush
  | .ret => opRet
  | .call _ => opCall
  | .jmp _ => opJmp
  | .jeq _ => opJeq
  | .jne _ => opJne
  | .cmp _ _ => opCmp

/-- The operand latches an instruction's format defines, in encoding order (R81 to R84). -/
def Instr.operands : Instr → List Operand
  | .hlt => []
  | .ldi a v => [a, v]
  | .prn a => [a]
  | .mul a b => [a, b]
  | .pop a => [a]
  | .push a => [a]
  | .ret => []
  | .call a => [a]
  | .jmp a => [a]
  | .jeq a => [a]
  | .jne a => [a]
  | .cmp a b => [a, b]

/-- The length in bytes: the opcode byte and the operand bytes (R80, R86, R90). -/
def Instr.length (i : Instr) : Nat := 1 + i.operands.length

/-- The byte an operand contributes to the encoding; an ABSENT one contributes none. -/
def Operand.bytes : Operand → List Byte
  | .absent => []
  | .byte b => [b]

/-- The bytes of an instruction, opcode first (R80 to R84); meant for well-formed instructions. -/
def encode (i : Instr) : List Byte := i.opcode :: i.operands.flatMap Operand.bytes

/-- The bytes of an instruction numbered as spec/opcode_table.json numbers them: byte k is bits 8k + 7 to 8k of w. Bits
from nbits up are 0, up to the longest instruction's 3 bytes. -/
def wordBytes (nbits w : Nat) : List Byte :=
  [BitVec.ofNat 8 (w % 2 ^ nbits), BitVec.ofNat 8 (w % 2 ^ nbits / 256), BitVec.ofNat 8 (w % 2 ^ nbits / 65536)]

/-- The instruction a decoder answered, if it answered one. -/
def Decoded.instr? : Decoded → Option Instr
  | .instr i => some i
  | .reject _ => none

/-- The host's question: the instruction decoded from the bits w of an opcode table row. -/
def decodeTableWord (nbits w : Nat) : Option Instr := (decodeBytes (wordBytes nbits w)).instr?

end Sys2Proof
end

