-- ==== Sys2Proof/Machine/State.lean ====
section
/-! DEFINITION. The state of the core (10_state.md R20), its reset (R36, 70_reset_and_hazards.md R200) and the reasons a
step of the host's interface can stop. Plain data throughout. -/

namespace Sys2Proof.Machine

/-- Memory as a list of (address, byte) pairs. An address that is not listed reads as 0: every cell is zero-initialised
(20_memory.md R50). Log entry 5. -/
abbrev Memory := List Host.Cell

/-- The canonical form: addresses strictly rising, every address one of the 256 cells (R50), and no entry equal to 0,
which an unlisted address reads as. -/
abbrev Memory.wf (m : Memory) : Prop :=
  m.Pairwise (fun c d => c.1 < d.1) ∧ ∀ c ∈ m, c.1 < Config.memSize ∧ c.2 ≠ 0

/-- FL: the outcome of the last compare (R27, R29). Its values as numbers are those of `Flag.value`. Log entry 6. -/
inductive Flag where
  /-- Value 0: no CMP executed since reset. -/
  | notCompared
  /-- Value 1. -/
  | equal
  /-- Value 2. -/
  | greater
  /-- Value 4. -/
  | less
  deriving DecidableEq, Repr

/-- STATE: the run state (R30). -/
inductive RunState where
  | running
  | halted
  | faulted
  deriving DecidableEq, Repr

/-- The kinds of fault inside the core (60_exceptions.md R170). -/
inductive FaultKind where
  /-- The opcode byte is none of the twelve (R171). -/
  | unknownOpcode
  /-- A fetch, operand, register index, stack or return address is out of range (R172). -/
  | outOfBounds
  /-- The ALU was given an operation other than ADD, MUL, CMP; no opcode causes it (R133, R173). -/
  | unsupportedALU
  deriving DecidableEq, Repr

/-- FAULT: what a fault records (R31). -/
structure FaultRecord where
  kind : FaultKind
  /-- pc at the start of the faulting step. -/
  pc : PcWord
  /-- The opcode byte fetched in that step; none where the fault was the fetch itself. -/
  opcode : Option Byte
  deriving DecidableEq, Repr

/-- The complete state of the core (R20). The latches of R35 do not persist between steps and are no part of it. -/
structure State where
  /-- x[0] to x[7]; register 7 is the stack pointer (R21, R22). -/
  regs : Vector Byte 8
  /-- The program counter (R24). -/
  pc : PcWord
  /-- FL (R27). -/
  fl : Flag
  /-- The 256 memory cells (20_memory.md R50). -/
  mem : Memory
  /-- STATE (R30). -/
  run : RunState
  /-- FAULT (R31). -/
  fault : Option FaultRecord
  /-- OUT, oldest first (R32). -/
  out : List Byte
  deriving DecidableEq, Repr

/-- Reset with a given SP_INIT (70_reset_and_hazards.md R200, R202): x[0..6] = 0, x[7] = SP_INIT, pc = 0, FL = 0, all
memory cells 0, RUNNING, no fault, empty output. -/
def State.resetWith (spInit : Byte) : State where
  regs := #v[0, 0, 0, 0, 0, 0, 0, spInit]
  pc := 0
  fl := .notCompared
  mem := []
  run := .running
  fault := none
  out := []

/-- The machine right after reset, SP_INIT at its default 244 (R202; log entry 3). -/
def State.reset : State := State.resetWith Config.spInitDefault

/-- Why the host's step has no next state. A fault of the core is no such reason: it is a next state with STATE =
FAULTED (60_exceptions.md R174; log entry 2). -/
inductive Fault where
  /-- `step` in a state with STATE = HALTED: no step exists there (40_fetch_decode_execute.md R117). Raised by `step`;
  safe: the spec defines no next state (log entry 1). -/
  | noStepWhenHalted
  /-- `step` in a state with STATE = FAULTED: no step exists there (R117). Raised by `step`; safe (log entry 1). -/
  | noStepWhenFaulted
  deriving DecidableEq, Repr

/-- Why the model has no meaning for an instruction. -/
inductive Refusal where
  /-- The instruction has no meaning in this model. Raised by an arm of `exec` only, and by none at present; safe. -/
  | notModelled (mnemonic : String)
  deriving DecidableEq, Repr

/-- What a step or a meaning answers. -/
abbrev Result := Host.Outcome State Fault Refusal

end Sys2Proof.Machine
end

