-- ==== Sys2Proof/Machine/Ops.lean ====
section
/-! DEFINITION. The named operations over registers, memory, pc, output and run state (the pseudocode primitives of
00_scope.md R14), the stack pointer's two range-checked movements (42_stack.md R144), and the entry into a fault
(60_exceptions.md R174). There is no return from a fault (R178). -/

namespace Sys2Proof.Machine

/-! ### Registers (10_state.md R21, R22): one bank, nothing hard-wired -/

/-- `x[i]`. -/
def State.readReg (s : State) (i : RegIndex) : Byte := s.regs[i]

/-- `x[i] <- v`. -/
def State.writeReg (s : State) (i : RegIndex) (v : Byte) : State := { s with regs := s.regs.set i v }

/-- The stack pointer, `x[7]` (R22). -/
def State.sp (s : State) : Byte := s.readReg Config.spIndex

/-- `x[7] <- v`. -/
def State.writeSp (s : State) (v : Byte) : State := s.writeReg Config.spIndex v

/-! ### Memory (20_memory.md R53, R54) -/

/-- The content of cell `a`; an unlisted cell holds 0. -/
def Memory.read : Memory → Nat → Byte
  | [], _ => 0
  | c :: m, a => if c.1 = a then c.2 else Memory.read m a

/-- The list without any entry for cell `a`. -/
def Memory.erase (m : Memory) (a : Nat) : Memory := m.filter (fun c => c.1 ≠ a)

/-- The list with an entry for cell `a` put at its place in rising order. -/
def Memory.insert : Memory → Nat → Byte → Memory
  | [], a, v => [(a, v)]
  | c :: m, a, v => if a < c.1 then (a, v) :: c :: m else c :: Memory.insert m a v

/-- Replace the content of cell `a` by `v`, keeping the canonical form: the value 0 leaves the cell unlisted. -/
def Memory.write (m : Memory) (a : Nat) (v : Byte) : Memory :=
  if v = 0 then Memory.erase m a else Memory.insert (Memory.erase m a) a v

/-- `MemRead(a, 1)`: an 8-bit address always names a cell. -/
def State.memRead (s : State) (a : Byte) : Byte := s.mem.read a.toNat

/-- `MemWrite(a, 1, v)`. -/
def State.memWrite (s : State) (a : Byte) (v : Byte) : State := { s with mem := s.mem.write a.toNat v }

/-! ### The program counter (10_state.md R24 to R26) -/

/-- `zext_9(v)` (00_scope.md R13). -/
def zext9 (v : Byte) : PcWord := v.setWidth 9

/-- Sequential advance by an instruction's length (40_fetch_decode_execute.md R114). From an address 0 to 255 the sum
is exact in 9 bits. -/
def State.advance (s : State) (len : Nat) : State := { s with pc := s.pc + BitVec.ofNat 9 len }

/-- Transfer control to an absolute address; no further advance (43_control_flow.md R154). -/
def State.jumpTo (s : State) (target : Byte) : State := { s with pc := zext9 target }

/-! ### Output and halt -/

/-- `Emit(v)`: append one value to OUT (44_load_print.md R162). -/
def State.emit (s : State) (v : Byte) : State := { s with out := s.out ++ [v] }

/-- `STATE <- HALTED` (R113). -/
def State.halt (s : State) : State := { s with run := .halted }

/-! ### Faults -/

/-- `raise K(pc = p, opcode = o)` (60_exceptions.md R174): registers, memory, pc, FL and OUT stay, STATE becomes FAULTED
and FAULT the record. `s` is the state at the start of the step, so its pc is p. UNVERIFIED: log entry 18. -/
def State.raise (s : State) (k : FaultKind) (opcode : Option Byte) : State :=
  { s with run := .faulted, fault := some ⟨k, s.pc, opcode⟩ }

/-- A meaning's bare `raise OutOfBounds` (40_fetch_decode_execute.md R110): the opcode byte is the instruction's. -/
def outOfBounds (ir : Byte) (s : State) : Result := .next (s.raise .outOfBounds (some ir))

/-! ### The stack pointer's movements (42_stack.md R144): range-checked, never wrapped. UNVERIFIED: log entry 17. -/

/-- `x[7] <- x[7] - 1`, or none where the stack address would be -1. -/
def State.decSp (s : State) : Option State := if s.sp = 0 then none else some (s.writeSp (s.sp - 1))

/-- `x[7] <- x[7] + 1`, or none where the stack pointer would be 256. -/
def State.incSp (s : State) : Option State := if s.sp = 255 then none else some (s.writeSp (s.sp + 1))

end Sys2Proof.Machine
end

