-- ==== Sys2Proof/Machine/Flags.lean ====
section
/-! DEFINITION. The flags register: its values as numbers (10_state.md R27), what CMP puts there (41_alu.md R131) and the
test JEQ and JNE make of it (R29, 43_control_flow.md R151, R152). -/

namespace Sys2Proof.Machine

/-- FL as its 8-bit number: 0 before any CMP, equal 1, greater 2, less 4 (R27). -/
def Flag.value : Flag → Byte
  | .notCompared => 0
  | .equal => 1
  | .greater => 2
  | .less => 4

/-- The outcome of comparing `l` with `r`, in the spec's order: equal, else greater, else less; unsigned (R131).
UNVERIFIED: log entry 19. -/
def compareFlag (l r : Byte) : Flag :=
  if l = r then .equal else if l.toNat > r.toNat then .greater else .less

/-- The whole value of FL compared with the literal 1: a value test, not a bit test (R29). -/
def State.flagIsEqual (s : State) : Bool := s.fl.value == 1

end Sys2Proof.Machine
end

