-- ==== Sys2Proof/Machine/Operands.lean ====
section
/-! DEFINITION. Operand use (40_fetch_decode_execute.md R112, 30_encoding.md R87, R88): an ABSENT operand or a register
byte above 7 raises OutOfBounds before the instruction has any effect. -/

namespace Sys2Proof.Machine

/-- `Need(op)`: the operand byte, none where it is ABSENT. -/
def need : Operand → Option Byte
  | .absent => none
  | .byte b => some b

/-- `RegIdx(op)`: the register index, none where the operand is ABSENT or the whole byte is above 7. -/
def regIdx : Operand → Option RegIndex
  | .absent => none
  | .byte b => if h : b.toNat < 8 then some ⟨b.toNat, h⟩ else none

/-- Go on with the register index, or raise OutOfBounds for the instruction with opcode byte `ir`. -/
def withReg (ir : Byte) (op : Operand) (s : State) (k : RegIndex → Result) : Result :=
  match regIdx op with
  | some r => k r
  | none => outOfBounds ir s

/-- Go on with the immediate byte, or raise OutOfBounds. -/
def withImm (ir : Byte) (op : Operand) (s : State) (k : Byte → Result) : Result :=
  match need op with
  | some v => k v
  | none => outOfBounds ir s

/-- The operand that names register `r`. -/
def regOperand (r : RegIndex) : Operand := .byte (BitVec.ofNat 8 r.val)

end Sys2Proof.Machine
end

