-- ==== Sys2Proof/Machine/Alu.lean ====
section
/-! DEFINITION. The ALU and its two instructions, MUL and CMP (41_alu.md R130 to R134). The ALU writes no pc: the
sequencer advances it (40_fetch_decode_execute.md R114, 90_conflicts.md C2). -/

namespace Sys2Proof.Machine

/-- The ALU's operation select (R133, 10_state.md R35). The spec gives the codes no numbers. Log entry 9. -/
inductive AluOp where
  /-- ADD: no opcode selects it (R132). -/
  | add
  | mul
  | cmp
  /-- Any other operation code. -/
  | other
  deriving DecidableEq, Repr

/-- One ALU operation on `x[a]` and `x[b]`: the new state, or the fault UnsupportedALU (R130 to R133). ADD wraps to 8 bits
(R132). -/
def alu (op : AluOp) (a b : RegIndex) (s : State) : Except FaultKind State :=
  match op with
  | .add => .ok (s.writeReg a (s.readReg a + s.readReg b))
  | .mul => .ok (s.writeReg a (s.readReg a * s.readReg b))
  | .cmp => .ok { s with fl := compareFlag (s.readReg a) (s.readReg b) }
  | .other => .error .unsupportedALU

/-- An ALU instruction of format RR: two register operands, the operation, then the advance by 3. -/
def aluInstr (ir : Byte) (op : AluOp) (opA opB : Operand) (s : State) : Result :=
  withReg ir opA s fun a =>
  withReg ir opB s fun b =>
  match alu op a b s with
  | .ok t => .next (t.advance 3)
  | .error k => .next (s.raise k (some ir))

/-- MUL a, b: x[a] <- (x[a] * x[b]) mod 256, FL unchanged (R130). -/
def execMul (opA opB : Operand) (s : State) : Result := aluInstr opMul .mul opA opB s

/-- CMP a, b: FL <- 1 equal, 2 greater, 4 less (R131). -/
def execCmp (opA opB : Operand) (s : State) : Result := aluInstr opCmp .cmp opA opB s

end Sys2Proof.Machine
end

