-- ==== Sys2Proof/Machine/Control.lean ====
section
/-! DEFINITION. JMP, JEQ, JNE (43_control_flow.md R150 to R154). The operand is checked whether or not the jump is taken
(R151, 30_encoding.md R87). -/

namespace Sys2Proof.Machine

/-- A jump of format R: to x[r] where `taken`, else past the instruction's two bytes. -/
def jumpInstr (ir : Byte) (taken : Bool) (opA : Operand) (s : State) : Result :=
  withReg ir opA s fun r =>
  .next (if taken then s.jumpTo (s.readReg r) else s.advance 2)

/-- JMP r: always taken (R150). -/
def execJmp (opA : Operand) (s : State) : Result := jumpInstr opJmp true opA s

/-- JEQ r: taken where FL = 1 (R151). -/
def execJeq (opA : Operand) (s : State) : Result := jumpInstr opJeq s.flagIsEqual opA s

/-- JNE r: taken where FL is not 1 (R152). -/
def execJne (opA : Operand) (s : State) : Result := jumpInstr opJne (!s.flagIsEqual) opA s

end Sys2Proof.Machine
end

