-- ==== Sys2Proof/Machine/Halt.lean ====
section
/-! DEFINITION. HLT (40_fetch_decode_execute.md R113). -/

namespace Sys2Proof.Machine

/-- HLT: pc advances by its width 1, then STATE becomes HALTED (90_conflicts.md C1). UNVERIFIED: log entry 15. -/
def execHlt (s : State) : Result := .next (s.advance 1).halt

end Sys2Proof.Machine
end

