-- ==== Sys2Proof/Machine/LoadPrint.lean ====
section
/-! DEFINITION. LDI and PRN (44_load_print.md R160 to R162). -/

namespace Sys2Proof.Machine

/-- LDI r, v: x[r] <- v, raw, no sign extension (R160). -/
def execLdi (opA opB : Operand) (s : State) : Result :=
  withReg opLdi opA s fun r =>
  withImm opLdi opB s fun v =>
  .next ((s.writeReg r v).advance 3)

/-- PRN r: append x[r] to the output (R161). -/
def execPrn (opA : Operand) (s : State) : Result :=
  withReg opPrn opA s fun r =>
  .next ((s.emit (s.readReg r)).advance 2)

end Sys2Proof.Machine
end

