-- ==== Sys2Proof/Machine/Stack.lean ====
section
/-! DEFINITION. PUSH, POP, CALL, RET (42_stack.md R140 to R145). Every check stands before every write, and the order of
the two actions of each instruction is the spec's, also where the operand is register 7. UNVERIFIED: log entry 20. -/

namespace Sys2Proof.Machine

/-- PUSH r: decrement x[7], then store x[r], read after the decrement, at the new x[7] (R140). -/
def execPush (opA : Operand) (s : State) : Result :=
  withReg opPush opA s fun r =>
  match s.decSp with
  | none => outOfBounds opPush s
  | some t => .next ((t.memWrite t.sp (t.readReg r)).advance 2)

/-- POP r: read the cell at x[7] into x[r], then increment x[7]; with r = 7 the increment is of the value just written
(R141). -/
def execPop (opA : Operand) (s : State) : Result :=
  withReg opPop opA s fun r =>
  match (s.writeReg r (s.memRead s.sp)).incSp with
  | none => outOfBounds opPop s
  | some t => .next (t.advance 2)

/-- CALL r: decrement x[7], store the return address pc + 2 there, jump to x[r], read after the decrement (R142). A return
address above 255 fits no cell (R145). -/
def execCall (opA : Operand) (s : State) : Result :=
  withReg opCall opA s fun r =>
  match s.decSp with
  | none => outOfBounds opCall s
  | some t =>
    if s.pc.toNat + 2 > 255 then outOfBounds opCall s
    else .next ((t.memWrite t.sp (BitVec.ofNat 8 (s.pc.toNat + 2))).jumpTo (t.readReg r))

/-- RET: jump to the address in the cell at x[7], then increment x[7] (R143). -/
def execRet (s : State) : Result :=
  match (s.jumpTo (s.memRead s.sp)).incSp with
  | none => outOfBounds opRet s
  | some t => .next t

end Sys2Proof.Machine
end

