-- ==== Sys2Proof/Machine/Dispatch.lean ====
section
/-! DEFINITION. exec: one arm per constructor of Instr (40_fetch_decode_execute.md R110, the case of the step). -/

namespace Sys2Proof.Machine

def exec (i : Instr) (s : State) : Host.Outcome State Fault Refusal :=
  match i with
  | .hlt => Sys2Proof.Machine.execHlt s
  | .ldi opA opB => Sys2Proof.Machine.execLdi opA opB s
  | .prn opA => Sys2Proof.Machine.execPrn opA s
  | .mul opA opB => Sys2Proof.Machine.execMul opA opB s
  | .pop opA => Sys2Proof.Machine.execPop opA s
  | .push opA => Sys2Proof.Machine.execPush opA s
  | .ret => Sys2Proof.Machine.execRet s
  | .call opA => Sys2Proof.Machine.execCall opA s
  | .jmp opA => Sys2Proof.Machine.execJmp opA s
  | .jeq opA => Sys2Proof.Machine.execJeq opA s
  | .jne opA => Sys2Proof.Machine.execJne opA s
  | .cmp opA opB => Sys2Proof.Machine.execCmp opA opB s

end Sys2Proof.Machine
end

