-- ==== Sys2Proof/Machine/Fetch.lean ====
section
/-! DEFINITION. Fetch and decode (40_fetch_decode_execute.md R110, R111), and placing bytes in memory. -/

namespace Sys2Proof.Machine

/-- What fetch and decode make of a state. -/
inductive Fetched where
  /-- STATE is not RUNNING: there is no step (R117). -/
  | ended (r : Fault)
  /-- A fetch or decode fault was raised; the step is over (R110, R176). -/
  | raised (t : State)
  /-- The instruction to execute. -/
  | run (i : Instr)
  deriving DecidableEq, Repr

/-- The operand latch for address `a`: ABSENT above 255 (R111). UNVERIFIED: log entry 16. -/
def State.operandAt (s : State) (a : Nat) : Operand :=
  if a ≤ 255 then .byte (s.memRead (BitVec.ofNat 8 a)) else .absent

/-- The three latches for an opcode at pc; none where pc is above 255 (R110 step 1). -/
def State.latches (s : State) : Option Latches :=
  if s.pc.toNat ≤ 255 then
    some ⟨s.memRead (BitVec.ofNat 8 s.pc.toNat), s.operandAt (s.pc.toNat + 1), s.operandAt (s.pc.toNat + 2)⟩
  else none

/-- Fetch and decode in a running state (R110): the fetch fault records no opcode, an unknown opcode records its byte. -/
def fetchRunning (s : State) : Fetched :=
  match s.latches with
  | none => .raised (s.raise .outOfBounds none)
  | some l =>
    match decode l with
    | .instr i => .run i
    | .reject _ => .raised (s.raise .unknownOpcode (some l.ir))

/-- Fetch and decode in any state: in HALTED and FAULTED no step exists (R117). -/
def fetch (s : State) : Fetched :=
  match s.run with
  | .running => fetchRunning s
  | .halted => .ended .noStepWhenHalted
  | .faulted => .ended .noStepWhenFaulted

/-- Put bytes into the cells from address `a` up; a byte whose address is above 255 has no cell and is dropped. -/
def State.placeBytes (s : State) (a : Nat) : List Byte → State
  | [] => s
  | b :: rest => (if a ≤ 255 then s.memWrite (BitVec.ofNat 8 a) b else s).placeBytes (a + 1) rest

end Sys2Proof.Machine
end

