-- ==== Sys2Proof/Machine/Step.lean ====
section
/-! DEFINITION. One step of the core (40_fetch_decode_execute.md R110): fetch, decode, execute, advance. -/

namespace Sys2Proof.Machine

/-- The step: what fetch and decode raised, or the decoded instruction executed. -/
def step (s : State) : Host.Outcome State Fault Refusal :=
  match fetch s with
  | .ended r => .fault r
  | .raised t => .next t
  | .run i => exec i s

/-- The state with an instruction's bytes stored at pc, where the next step fetches it. Log entry 10. -/
def State.withFetchWord (s : State) (nbits w : Nat) : State := s.placeBytes s.pc.toNat (wordBytes nbits w)

end Sys2Proof.Machine
end

