-- ==== Sys2Proof/Machine/Loader.lean ====
section
/-! DEFINITION. The LOAD interface (00_scope.md R8, 70_reset_and_hazards.md R203): from reset and IMAGE to the launch
state; and the text format the loader reads (30_encoding.md R100). A LoadError is no event of the core: the core does not
start (60_exceptions.md R175). -/

namespace Sys2Proof.Machine

/-- Why a load fails; every reason is the one kind LoadError (R170, R175). -/
inductive LoadError where
  /-- The program source is missing (R175). -/
  | sourceMissing
  /-- A significant line is no base-2 literal (R100, R175). -/
  | nonBinaryToken
  /-- More than 256 bytes (R8; log entry 12). -/
  | imageTooLong
  /-- A literal above 255 (R8; log entry 12). -/
  | valueTooLarge
  deriving DecidableEq, Repr

/-- The launch state for an image given as numbers: reset, then IMAGE[i] in cell i (R8, R200). An image of more than 256
elements, or with an element above 255, is a LoadError (R207). -/
def launch (spInit : Byte) (image : List Nat) : Except LoadError State :=
  if image.length > Config.memSize then .error .imageTooLong
  else if image.any (fun n => n > 255) then .error .valueTooLarge
  else .ok ((State.resetWith spInit).placeBytes 0 (image.map (BitVec.ofNat 8)))

/-! ### The program text (R100). Log entry 11 says what the model fixes where the rule leaves the text open. -/

/-- The lines of a text, separated by newlines. -/
def splitLines : List Char → List (List Char)
  | [] => [[]]
  | c :: cs =>
    match splitLines cs with
    | [] => [[c]]
    | l :: ls => if c = '\n' then [] :: l :: ls else (c :: l) :: ls

/-- A line without its comment and without surrounding whitespace. -/
def significantPart (line : List Char) : List Char :=
  (((line.takeWhile (· ≠ '#')).dropWhile Char.isWhitespace).reverse.dropWhile Char.isWhitespace).reverse

/-- The number a base-2 literal stands for, most significant bit first (00_scope.md R12); none where a character is no
binary digit. `acc` is the value of the digits already read. -/
def binaryValue (acc : Nat) : List Char → Option Nat
  | [] => some acc
  | '0' :: cs => binaryValue (2 * acc) cs
  | '1' :: cs => binaryValue (2 * acc + 1) cs
  | _ :: _ => none

/-- The values of the significant lines, in order. -/
def parseLines : List (List Char) → Except LoadError (List Nat)
  | [] => .ok []
  | line :: rest =>
    match significantPart line with
    | [] => parseLines rest
    | c :: cs =>
      match binaryValue 0 (c :: cs) with
      | none => .error .nonBinaryToken
      | some n =>
        match parseLines rest with
        | .ok ns => .ok (n :: ns)
        | .error e => .error e

/-- The image a program source gives; `none` is a missing source (R175). -/
def parseText : Option (List Char) → Except LoadError (List Nat)
  | none => .error .sourceMissing
  | some text => parseLines (splitLines text)

/-- The whole boot sequence up to the first step (70_reset_and_hazards.md R203): reset, read the program text, load it. -/
def boot (spInit : Byte) (source : Option (List Char)) : Except LoadError State :=
  match parseText source with
  | .ok image => launch spInit image
  | .error e => .error e

end Sys2Proof.Machine
end

