-- ==== Sys2Proof/Machine/Status.lean ====
section
/-! DEFINITION. What the outside reads: the exit status (00_scope.md R11, 60_exceptions.md R170, R187) and the text the
output sink makes of OUT (44_load_print.md R163). No instruction reads either. -/

namespace Sys2Proof.Machine

/-- The numeric code of a fault kind (R170). UNVERIFIED: log entry 14. -/
def FaultKind.code : FaultKind → Nat
  | .unknownOpcode => 1
  | .outOfBounds => 2
  | .unsupportedALU => 3

/-- The code of a LoadError, whatever its reason (R170). -/
def LoadError.code : LoadError → Nat := fun _ => 4

/-- The exit status (R187): 0 when HALTED, the recorded fault's code when FAULTED, none while the run goes on (R187: a run
that does not end delivers no status). -/
def State.exitStatus (s : State) : Option Nat :=
  match s.run with
  | .running => none
  | .halted => some 0
  | .faulted => s.fault.map (fun r => r.kind.code)

/-- The status of an attempt to boot that failed (R187). -/
def bootStatus : Except LoadError State → Option Nat
  | .ok s => s.exitStatus
  | .error e => some e.code

/-- The decimal string form of one printed value: unsigned, no sign, no leading zeros, "0" for zero (R163). -/
def decimalNumeral (v : Byte) : List Char := Nat.toDigits 10 v.toNat

/-- The sink's text for a sequence of printed values, OUT_SEP between two of them (R7, R163). DESIGN CHOICE: nothing
stands after the last; log entry 13. -/
def sinkText (outSep : List Char) (out : List Byte) : List Char :=
  (out.map decimalNumeral).intersperse outSep |>.flatten

end Sys2Proof.Machine
end

