-- ==== Sys2Proof/Safety.lean ====
section
/-! DEFINITION. The terms claims use: what stays unchanged between two states (frames), which registers and cells an
instruction may write, the invariant every step keeps (10_state.md R37), and what a safe run is. -/

namespace Sys2Proof.Machine

/-- The state a step answers, if it answers one. -/
def nextState : Result → Option State
  | .next t => some t
  | .fault _ => none
  | .refused _ => none

/-! ### Frames -/

/-- Every register outside `ws` holds what it held. -/
def RegsSameBut (ws : List RegIndex) (s t : State) : Prop := ∀ q, q ∉ ws → t.readReg q = s.readReg q

/-- Every cell of memory reads as before. -/
def MemSame (s t : State) : Prop := ∀ a, t.memRead a = s.memRead a

/-- Every cell of memory but `a` reads as before. -/
def MemSameBut (a : Byte) (s t : State) : Prop := ∀ b, b ≠ a → t.memRead b = s.memRead b

/-- STATE and FAULT are as before. -/
def StatusSame (s t : State) : Prop := t.run = s.run ∧ t.fault = s.fault

/-- The registers an instruction may write, where its operands name any (10_state.md R23). -/
def writtenRegs : Instr → List RegIndex
  | .hlt => []
  | .ldi a _ => (regIdx a).toList
  | .prn _ => []
  | .mul a _ => (regIdx a).toList
  | .pop a => (regIdx a).toList ++ [7]
  | .push _ => [7]
  | .ret => [7]
  | .call _ => [7]
  | .jmp _ => []
  | .jeq _ => []
  | .jne _ => []
  | .cmp _ _ => []

/-- The instructions that store to memory (20_memory.md R51). -/
def stores : Instr → Bool
  | .push _ | .call _ => true
  | .hlt | .ldi _ _ | .prn _ | .mul _ _ | .pop _ | .ret | .jmp _ | .jeq _ | .jne _ | .cmp _ _ => false

/-- The instructions that set pc themselves (43_control_flow.md R154). -/
def transfersControl : Instr → Bool
  | .call _ | .ret | .jmp _ | .jeq _ | .jne _ => true
  | .hlt | .ldi _ _ | .prn _ | .mul _ _ | .pop _ | .push _ | .cmp _ _ => false

/-! ### What stands at pc -/

/-- The bytes at pc, pc + 1 and pc + 2, as far as memory reaches: a list that ends where the address space does. -/
def State.bytesAtPc (s : State) : List Byte :=
  ((List.range 3).filter (fun k => s.pc.toNat + k ≤ 255)).map (fun k => s.memRead (BitVec.ofNat 8 (s.pc.toNat + k)))

/-- The instruction the next step executes is `i`: STATE is RUNNING and the bytes at pc decode to it. -/
def AtInstr (s : State) (i : Instr) : Prop := s.run = .running ∧ decodeBytes s.bytesAtPc = .instr i

/-! ### Sequences of stack instructions (42_stack.md R146) -/

/-- Push the registers of a list in order; answers the values found on top of the stack after each push, first pushed
first, and the last state. -/
def pushAll : List RegIndex → State → Option (List Byte × State)
  | [], s => some ([], s)
  | r :: rs, s =>
    match nextState (exec (.push (regOperand r)) s) with
    | none => none
    | some t => (pushAll rs t).map fun p => (t.memRead t.sp :: p.1, p.2)

/-- Pop into the registers of a list in order; answers the value each register received, first popped first, and the last
state. -/
def popAll : List RegIndex → State → Option (List Byte × State)
  | [], s => some ([], s)
  | r :: rs, s =>
    match nextState (exec (.pop (regOperand r)) s) with
    | none => none
    | some t => (popAll rs t).map fun p => (t.readReg r :: p.1, p.2)

/-! ### Program texts (30_encoding.md R100) -/

/-- The eight binary digits of a byte, most significant first (00_scope.md R12). -/
def binaryDigits (b : Byte) : List Char := ((List.range 8).map (fun k => if b.getMsbD k then '1' else '0'))

/-- A program text: one byte a line, each line with a comment after it. -/
def programText (lines : List (Byte × List Char)) : List Char :=
  lines.flatMap fun l => binaryDigits l.1 ++ [' ', '#'] ++ l.2 ++ ['\n']

/-! ### Invariants -/

/-- FAULT = none exactly when STATE is not FAULTED (10_state.md R31, R37). -/
def FaultMatchesState (s : State) : Prop := s.fault = none ↔ s.run ≠ .faulted

/-- A recorded fault names the pc of the instruction that faulted, where pc still is, and has no opcode exactly when
that address is above 255 (R31, 60_exceptions.md R172, R174). It is not UnsupportedALU (R173). -/
def FaultRecordSound (s : State) : Prop :=
  ∀ r, s.fault = some r →
    r.pc = s.pc ∧ (r.opcode = none ↔ 255 < s.pc.toNat) ∧ r.kind ≠ .unsupportedALU ∧
    (r.opcode = none → r.kind = .outOfBounds)

/-- The conditions under which a step of a running core raises OutOfBounds, the complete list of 60_exceptions.md R172. -/
def OutOfBoundsCause (s : State) : Prop :=
  255 < s.pc.toNat ∨ ∃ i, decodeBytes s.bytesAtPc = .instr i ∧
    (i.wellFormed = false ∨
     ((∃ a, i = .push a ∨ i = .call a) ∧ s.sp = 0) ∨
     (i = .ret ∧ s.sp = 255) ∨
     (∃ r, i = .pop (regOperand r) ∧ (if r = 7 then s.memRead s.sp else s.sp) = 255) ∨
     (∃ a, i = .call a ∧ s.pc.toNat = 254))

/-- What holds at reset and after every step (10_state.md R26, R37). -/
structure Inv (s : State) : Prop where
  /-- Memory is in its canonical form, so every entry is one of the 256 cells. -/
  memCanonical : s.mem.wf
  /-- pc is at most 256. -/
  pcAtMost256 : s.pc.toNat ≤ 256
  /-- FAULT is none exactly when STATE is not FAULTED. -/
  faultMatches : FaultMatchesState s
  /-- The fault record is the faulting instruction's. -/
  faultSound : FaultRecordSound s

/-! ### Runs -/

/-- States a run reaches from `s`. -/
inductive Reaches (s : State) : State → Prop where
  | start : Reaches s s
  | step {t u : State} : Reaches s t → Sys2Proof.Machine.step t = .next u → Reaches s u

/-- A run from `s` is safe where it never reaches FAULTED. -/
def SafeFrom (s : State) : Prop := ∀ t, Reaches s t → t.run ≠ .faulted

end Sys2Proof.Machine
end

