-- ==== Sys2Proof/Certificates/Slice0/Obligations.lean ====
section
/-! DEFINITION. The statements for the provers. Each docstring names the rule or section of spec/ it formalises. -/

open Sys2Proof Sys2Proof.Machine

/-! ### Reset and launch -/

/-- 70_reset_and_hazards.md section 1: what reset leaves, for every SP_INIT. The zero registers and the entry point are the
spec's own decisions (D5, D6; log entry 4); that `State.reset` takes the default 244 is the model's choice (log entry 3). -/
def Obligations.ResetStateValues : Prop :=
  (∀ sp : Byte,
    (∀ q : RegIndex, (State.resetWith sp).readReg q = if q = 7 then sp else 0) ∧
    (State.resetWith sp).pc = 0 ∧ (State.resetWith sp).fl.value = 0 ∧
    (∀ a, (State.resetWith sp).memRead a = 0) ∧
    (State.resetWith sp).run = .running ∧ (State.resetWith sp).fault = none ∧ (State.resetWith sp).out = []) ∧
  State.reset = State.resetWith 244

/-- 00_scope.md section 4, LOAD: cell i holds IMAGE[i], every other cell its reset value 0, and everything but memory is as
reset leaves it. -/
def Obligations.LaunchPlacesImage : Prop :=
  ∀ (sp : Byte) (image : List Nat), image.length ≤ 256 → (∀ n ∈ image, n ≤ 255) →
    ∃ s, launch sp image = .ok s ∧
      (∀ a : Byte, (s.memRead a).toNat = image.getD a.toNat 0) ∧
      s = { State.resetWith sp with mem := s.mem }

/-- 00_scope.md section 4 and decision D17: an image of more than 256 elements or with an element above 255 is a LoadError,
of code 4, and there is no launch state. -/
def Obligations.LaunchRefusesMalformedImages : Prop :=
  ∀ (sp : Byte) (image : List Nat), (256 < image.length ∨ ∃ n ∈ image, 255 < n) →
    ∃ e, launch sp image = .error e ∧ e.code = 4 ∧ bootStatus (launch sp image) = some 4

/-- 30_encoding.md section 4: a text of one eight-digit binary literal a line, each with a trailing comment, gives its bytes in
order. Which characters are whitespace and digits is the model's choice (log entry 11). -/
def Obligations.LoaderReadsBinaryLines : Prop :=
  ∀ lines : List (Byte × List Char), (∀ l ∈ lines, '\n' ∉ l.2) →
    parseText (some (programText lines)) = .ok (lines.map fun l => l.1.toNat)

/-! ### Decoding and encoding -/

/-- R85: the opcode byte, whole, against the twelve literals of the table; any other byte selects no instruction and is the
UnknownOpcode fault. -/
def Obligations.DecodeFollowsOpcodeTable : Prop :=
  (∀ a b : Operand,
    decode ⟨0b00000001, a, b⟩ = .instr .hlt ∧
    decode ⟨0b10000010, a, b⟩ = .instr (.ldi a b) ∧
    decode ⟨0b01000111, a, b⟩ = .instr (.prn a) ∧
    decode ⟨0b10100010, a, b⟩ = .instr (.mul a b) ∧
    decode ⟨0b01000110, a, b⟩ = .instr (.pop a) ∧
    decode ⟨0b01000101, a, b⟩ = .instr (.push a) ∧
    decode ⟨0b00010001, a, b⟩ = .instr .ret ∧
    decode ⟨0b01010000, a, b⟩ = .instr (.call a) ∧
    decode ⟨0b01010100, a, b⟩ = .instr (.jmp a) ∧
    decode ⟨0b01010101, a, b⟩ = .instr (.jeq a) ∧
    decode ⟨0b01010110, a, b⟩ = .instr (.jne a) ∧
    decode ⟨0b10100111, a, b⟩ = .instr (.cmp a b)) ∧
  (∀ l : Latches,
    l.ir ∉ [0b00000001, 0b10000010, 0b01000111, 0b10100010, 0b01000110, 0b01000101, 0b00010001, 0b01010000,
      0b01010100, 0b01010101, 0b01010110, (0b10100111 : Byte)] →
    decode l = .reject (.unknownOpcode l.ir) ∧
    ∀ s : State, s.run = .running → s.latches = some l → step s = .next (s.raise .unknownOpcode (some l.ir)))

/-- 95_test_vectors.md V-ENC: a few words of the table, numbered as spec/opcode_table.json numbers them. A sanity check. -/
def Obligations.SampleWordsDecode : Prop :=
  decodeTableWord 8 0x01 = some .hlt ∧
  decodeTableWord 24 0xC80382 = some (.ldi (.byte 3) (.byte 200)) ∧
  decodeTableWord 24 0x0602A2 = some (.mul (.byte 2) (.byte 6)) ∧
  decodeTableWord 16 0x0445 = some (.push (.byte 4)) ∧
  decodeTableWord 16 0x0355 = some (.jeq (.byte 3)) ∧
  decodeTableWord 8 0x83 = none ∧ decodeTableWord 8 0x00 = none

/-- 30_encoding.md sections 1 and 2: decoding the encoding of any well-formed instruction, whatever bytes follow it, gives it
back with every operand. -/
def Obligations.DecodeOfEncodeIsIdentity : Prop :=
  ∀ (i : Instr) (rest : List Byte), i.wellFormed = true → decodeBytes (encode i ++ rest) = .instr i

/-- 30_encoding.md sections 1 and 2, the other direction: bytes that decode to a well-formed instruction begin with its
encoding, which has the instruction's length. -/
def Obligations.DecodedBytesBeginWithEncoding : Prop :=
  ∀ (bs : List Byte) (i : Instr), decodeBytes bs = .instr i → i.wellFormed = true →
    bs.take i.length = encode i ∧ (encode i).length = i.length

/-! ### The step -/

/-- 40_fetch_decode_execute.md section 1: one step of a running core executes the instruction the bytes at pc decode to;
beyond memory it raises OutOfBounds with no opcode, and at an unknown opcode UnknownOpcode with the byte. That a missing operand
byte is no fault of the fetch is the spec's own decision (D3; log entry 16). -/
def Obligations.StepRunsDecodedInstruction : Prop :=
  ∀ s : State, s.run = .running →
    step s = match decodeBytes s.bytesAtPc with
      | .instr i => exec i s
      | .reject .noOpcode => .next (s.raise .outOfBounds none)
      | .reject (.unknownOpcode b) => .next (s.raise .unknownOpcode (some b))

/-- 40_fetch_decode_execute.md section 4 and decision D21: in a terminal state no step exists. The host-level fault that says so
is the model's choice (log entry 1). -/
def Obligations.NoStepInTerminalStates : Prop :=
  ∀ s : State, (s.run = .halted → step s = .fault .noStepWhenHalted) ∧
    (s.run = .faulted → step s = .fault .noStepWhenFaulted)

/-- 40_fetch_decode_execute.md section 1: each instruction completes or raises a fault, and either is a next state, from every
state and for every operand; nothing is refused. -/
def Obligations.ExecAlwaysAnswersNext : Prop :=
  (∀ (i : Instr) (s : State), ∃ t, exec i s = .next t) ∧
  (∀ s : State, s.run = .running → ∃ t, step s = .next t)

/-- 40_fetch_decode_execute.md section 3: a completed instruction that does not transfer control advances pc by its length,
exactly, and never past 256. The 9-bit pc is the spec's own decision (D1; log entry 23). -/
def Obligations.SequentialAdvanceIsExact : Prop :=
  ∀ (s t : State) (i : Instr), AtInstr s i → transfersControl i = false → step s = .next t → t.run ≠ .faulted →
    t.pc.toNat = s.pc.toNat + i.length ∧ t.pc.toNat ≤ 256

/-- 10_state.md section 9: a control transfer leaves pc in 0 to 255: CALL, RET, JMP, and JEQ and JNE where taken. -/
def Obligations.ControlTransferTargetsMemory : Prop :=
  ∀ (s t : State) (i : Instr), exec i s = .next t → s.run = .running → t.run = .running →
    ((∃ a, i = .call a) ∨ i = .ret ∨ (∃ a, i = .jmp a) ∨ (∃ a, i = .jeq a ∧ s.fl.value = 1) ∨
      (∃ a, i = .jne a ∧ s.fl.value ≠ 1)) →
    t.pc.toNat ≤ 255

/-! ### The instructions -/

/-- 40_fetch_decode_execute.md section 2, HLT: pc + 1, HALTED, everything else as before. The advance is the spec's own decision
(D2; log entry 15). -/
def Obligations.HltHalts : Prop :=
  ∀ s : State, ∃ t, exec .hlt s = .next t ∧ t.run = .halted ∧ t.pc = s.pc + 1 ∧ RegsSameBut [] s t ∧
    t.fl = s.fl ∧ MemSame s t ∧ t.fault = s.fault ∧ t.out = s.out

/-- R160: LDI writes the raw immediate to its register and nothing else; a bad operand raises OutOfBounds. -/
def Obligations.LdiLoadsImmediate : Prop :=
  (∀ (s : State) (r : RegIndex) (v : Byte), ∃ t, exec (.ldi (regOperand r) (.byte v)) s = .next t ∧
    t.readReg r = v ∧ RegsSameBut [r] s t ∧ t.pc = s.pc + 3 ∧
    t.fl = s.fl ∧ MemSame s t ∧ StatusSame s t ∧ t.out = s.out) ∧
  (∀ (s : State) (a v : Operand), a.isRegister = false ∨ v = .absent →
    exec (.ldi a v) s = .next (s.raise .outOfBounds (some 0x82)))

/-- R161: PRN emits its register's value, once, and changes no register and no memory; a bad operand raises OutOfBounds and
nothing is emitted. -/
def Obligations.PrnEmitsRegister : Prop :=
  (∀ (s : State) (r : RegIndex), ∃ t, exec (.prn (regOperand r)) s = .next t ∧
    t.out = s.out ++ [s.readReg r] ∧ RegsSameBut [] s t ∧ t.pc = s.pc + 2 ∧
    t.fl = s.fl ∧ MemSame s t ∧ StatusSame s t) ∧
  (∀ (s : State) (a : Operand), a.isRegister = false →
    exec (.prn a) s = .next (s.raise .outOfBounds (some 0x47)))

/-- R130: MUL's result is the product modulo 256, for every pair of registers, the same one included; FL and everything else
is unchanged; a bad operand raises OutOfBounds. -/
def Obligations.MulWrapsModulo256 : Prop :=
  (∀ (s : State) (a b : RegIndex), ∃ t, exec (.mul (regOperand a) (regOperand b)) s = .next t ∧
    (t.readReg a).toNat = (s.readReg a).toNat * (s.readReg b).toNat % 256 ∧ RegsSameBut [a] s t ∧
    t.pc = s.pc + 3 ∧ t.fl = s.fl ∧ MemSame s t ∧ StatusSame s t ∧ t.out = s.out) ∧
  (∀ (s : State) (a b : Operand), a.isRegister = false ∨ b.isRegister = false →
    exec (.mul a b) s = .next (s.raise .outOfBounds (some 0xA2)))

/-- 41_alu.md, CMP: FL becomes 1, 2 or 4 and nothing else but pc changes; a bad operand raises OutOfBounds. That the comparison is
unsigned is the spec's own decision (D14; log entry 19). -/
def Obligations.CmpSetsFlag : Prop :=
  (∀ (s : State) (a b : RegIndex), ∃ t, exec (.cmp (regOperand a) (regOperand b)) s = .next t ∧
    t.fl.value = (if s.readReg a = s.readReg b then 1
      else if (s.readReg a).toNat > (s.readReg b).toNat then 2 else 4) ∧
    RegsSameBut [] s t ∧ t.pc = s.pc + 3 ∧ MemSame s t ∧ StatusSame s t ∧ t.out = s.out) ∧
  (∀ (s : State) (a b : Operand), a.isRegister = false ∨ b.isRegister = false →
    exec (.cmp a b) s = .next (s.raise .outOfBounds (some 0xA7)))

/-- 42_stack.md, PUSH: with a stack pointer above 0, the pointer goes down by one and the cell it then addresses receives the
register's value, read after the decrement. The condition and the order for register 7 are the spec's own decisions (D8, D25;
log entries 17 and 20). -/
def Obligations.PushStoresBelowStackPointer : Prop :=
  ∀ (s : State) (r : RegIndex), s.sp ≠ 0 → ∃ t, exec (.push (regOperand r)) s = .next t ∧
    t.sp.toNat + 1 = s.sp.toNat ∧ t.memRead (s.sp - 1) = (if r = 7 then s.sp - 1 else s.readReg r) ∧
    MemSameBut (s.sp - 1) s t ∧ RegsSameBut [7] s t ∧ t.pc = s.pc + 2 ∧
    t.fl = s.fl ∧ StatusSame s t ∧ t.out = s.out

/-- 42_stack.md, POP: the register receives the cell at the stack pointer, then the pointer goes up by one; for register 7 the
value popped is what goes up. No memory is written. The condition and the order for register 7 are the spec's own decisions
(D9, D25; log entries 17 and 20). -/
def Obligations.PopLoadsAtStackPointer : Prop :=
  ∀ (s : State) (r : RegIndex), (if r = 7 then s.memRead s.sp else s.sp) ≠ 255 →
    ∃ t, exec (.pop (regOperand r)) s = .next t ∧
    (r ≠ 7 → t.readReg r = s.memRead s.sp) ∧
    t.sp.toNat = (if r = 7 then s.memRead s.sp else s.sp).toNat + 1 ∧
    MemSame s t ∧ RegsSameBut [r, 7] s t ∧ t.pc = s.pc + 2 ∧ t.fl = s.fl ∧ StatusSame s t ∧ t.out = s.out

/-- 42_stack.md, CALL: with a stack pointer above 0 and a return address that fits a cell, the pointer goes down by one, the cell
it then addresses receives pc + 2, and pc becomes the register's value, read after the decrement. The conditions and the
order for register 7 are the spec's own decisions (D8, D10, D25; log entries 17 and 20). -/
def Obligations.CallPushesReturnAddress : Prop :=
  ∀ (s : State) (r : RegIndex), s.sp ≠ 0 → s.pc.toNat + 2 ≤ 255 → ∃ t, exec (.call (regOperand r)) s = .next t ∧
    t.sp.toNat + 1 = s.sp.toNat ∧ (t.memRead (s.sp - 1)).toNat = s.pc.toNat + 2 ∧
    t.pc.toNat = (if r = 7 then s.sp - 1 else s.readReg r).toNat ∧
    MemSameBut (s.sp - 1) s t ∧ RegsSameBut [7] s t ∧ t.fl = s.fl ∧ StatusSame s t ∧ t.out = s.out

/-- 42_stack.md, RET: pc becomes the cell at the stack pointer, then the pointer goes up by one; no memory is written. The
condition is the spec's own decision (D9; log entry 17). -/
def Obligations.RetPopsProgramCounter : Prop :=
  ∀ s : State, s.sp ≠ 255 → ∃ t, exec .ret s = .next t ∧
    t.pc.toNat = (s.memRead s.sp).toNat ∧ t.sp.toNat = s.sp.toNat + 1 ∧
    MemSame s t ∧ RegsSameBut [7] s t ∧ t.fl = s.fl ∧ StatusSame s t ∧ t.out = s.out

/-- R150: JMP sets pc to its register's value, with no further advance, and changes nothing else; a bad operand raises
OutOfBounds. -/
def Obligations.JmpJumpsToRegister : Prop :=
  (∀ (s : State) (r : RegIndex), ∃ t, exec (.jmp (regOperand r)) s = .next t ∧
    t.pc.toNat = (s.readReg r).toNat ∧ RegsSameBut [] s t ∧ t.fl = s.fl ∧ MemSame s t ∧
    StatusSame s t ∧ t.out = s.out) ∧
  (∀ (s : State) (a : Operand), a.isRegister = false →
    exec (.jmp a) s = .next (s.raise .outOfBounds (some 0x54)))

/-- R151: JEQ jumps where the whole value of FL is 1 and otherwise skips its own two bytes; it changes nothing else. A bad operand
raises OutOfBounds whether or not the jump is taken. Not taken at address 254 it leaves 256, and the next fetch faults. -/
def Obligations.JeqJumpsWhenEqual : Prop :=
  (∀ (s : State) (r : RegIndex), ∃ t, exec (.jeq (regOperand r)) s = .next t ∧
    (s.fl.value = 1 → t.pc.toNat = (s.readReg r).toNat) ∧ (s.fl.value ≠ 1 → t.pc = s.pc + 2) ∧
    RegsSameBut [] s t ∧ t.fl = s.fl ∧ MemSame s t ∧ StatusSame s t ∧ t.out = s.out ∧
    (s.fl.value ≠ 1 → s.pc = 254 → s.run = .running → step t = .next (t.raise .outOfBounds none))) ∧
  (∀ (s : State) (a : Operand), a.isRegister = false →
    exec (.jeq a) s = .next (s.raise .outOfBounds (some 0x55)))

/-- R152: JNE jumps where the whole value of FL is not 1, the never-compared 0 included, and otherwise skips its own two bytes; it
changes nothing else. A bad operand raises OutOfBounds, taken or not. -/
def Obligations.JneJumpsWhenNotEqual : Prop :=
  (∀ (s : State) (r : RegIndex), ∃ t, exec (.jne (regOperand r)) s = .next t ∧
    (s.fl.value ≠ 1 → t.pc.toNat = (s.readReg r).toNat) ∧ (s.fl.value = 1 → t.pc = s.pc + 2) ∧
    RegsSameBut [] s t ∧ t.fl = s.fl ∧ MemSame s t ∧ StatusSame s t ∧ t.out = s.out) ∧
  (∀ (s : State) (a : Operand), a.isRegister = false →
    exec (.jne a) s = .next (s.raise .outOfBounds (some 0x56)))

/-! ### Instructions together -/

/-- 95_test_vectors.md S5: after a CMP, JEQ is taken exactly where the compared registers were equal, and JNE exactly where they
were not. -/
def Obligations.CompareDecidesConditionalJumps : Prop :=
  ∀ (s : State) (a b r : RegIndex), ∃ t u w,
    exec (.cmp (regOperand a) (regOperand b)) s = .next t ∧
    exec (.jeq (regOperand r)) t = .next u ∧ exec (.jne (regOperand r)) t = .next w ∧
    (s.readReg a = s.readReg b → u.pc.toNat = (s.readReg r).toNat ∧ w.pc = s.pc + 5) ∧
    (s.readReg a ≠ s.readReg b → u.pc = s.pc + 5 ∧ w.pc.toNat = (s.readReg r).toNat)

/-- 42_stack.md section on stack discipline, (c): PUSH then POP of one register restores it and the stack pointer, register 7
included, and leaves the pushed value in the cell below. The condition, and that the value pushed for register 7 is the
decremented pointer, are the spec's own decisions (D8, D25; log entries 17 and 20). -/
def Obligations.PushThenPopRestores : Prop :=
  ∀ (s : State) (r : RegIndex), s.sp ≠ 0 → ∃ t u,
    exec (.push (regOperand r)) s = .next t ∧ exec (.pop (regOperand r)) t = .next u ∧
    RegsSameBut [] s u ∧ MemSameBut (s.sp - 1) s u ∧
    u.memRead (s.sp - 1) = (if r = 7 then s.sp - 1 else s.readReg r) ∧ u.fl = s.fl

/-- 42_stack.md section on stack discipline, (b): a CALL whose target holds RET comes back to the instruction after the CALL with
every register and FL as before, and the return address left in the cell below the stack pointer. -/
def Obligations.CallThenRetReturns : Prop :=
  ∀ (s t : State) (r : RegIndex), AtInstr s (.call (regOperand r)) → step s = .next t → t.run = .running →
    t.memRead (BitVec.ofNat 8 t.pc.toNat) = 0x11 →
    ∃ u, step t = .next u ∧ u.run = .running ∧ u.pc.toNat = s.pc.toNat + 2 ∧ RegsSameBut [] s u ∧ u.fl = s.fl ∧
      u.out = s.out ∧ MemSameBut (s.sp - 1) s u ∧ (u.memRead (s.sp - 1)).toNat = s.pc.toNat + 2

/-- 42_stack.md section on stack discipline, (a): N pushes, of any registers, followed by N pops into registers other than the
stack pointer give the pushed values in reverse order and the stack pointer its old value. That the pointer must not go below 0
is the spec's own decision (D8; log entry 17). -/
def Obligations.StackIsLastInFirstOut : Prop :=
  ∀ (s : State) (rs ps : List RegIndex), rs.length ≤ s.sp.toNat → ps.length = rs.length → 7 ∉ ps →
    ∃ vs t u, pushAll rs s = some (vs, t) ∧ popAll ps t = some (vs.reverse, u) ∧
      t.sp.toNat + rs.length = s.sp.toNat ∧ u.sp = s.sp ∧ (7 ∉ rs → vs = rs.map s.readReg)

/-- 20_memory.md section 6: a byte PUSH stores at the very next instruction's address is the opcode the next step fetches, the
whole value of the register read after the decrement. That a store is seen by the next fetch is the spec's own decision (D19;
log entry 22), and so are the condition and the value for register 7 (D8, D25; log entries 17 and 20). -/
def Obligations.StoredByteIsFetchedNext : Prop :=
  ∀ (s : State) (r : RegIndex), AtInstr s (.push (regOperand r)) → s.sp ≠ 0 →
    (s.sp - 1).toNat = s.pc.toNat + 2 →
    ∃ t, step s = .next t ∧ t.run = .running ∧
      t.bytesAtPc.head? = some (if r = 7 then s.sp - 1 else s.readReg r)

/-! ### Faults -/

/-- R112: an instruction with an absent operand or a register operand above 7 raises OutOfBounds at its own pc with its own
opcode byte; the operand bytes its format does not define play no part. -/
def Obligations.BadOperandRaisesOutOfBounds : Prop :=
  (∀ (i : Instr) (s : State), i.wellFormed = false → exec i s = .next (s.raise .outOfBounds (some i.opcode))) ∧
  (∀ (l : Latches) (i : Instr), decode l = .instr i → i.opcode = l.ir) ∧
  (∀ (l l' : Latches) (i : Instr), decode l = .instr i → l'.ir = l.ir →
    (1 ≤ i.operands.length → l'.opA = l.opA) → (2 ≤ i.operands.length → l'.opB = l.opB) → decode l' = .instr i) ∧
  (∀ b : Byte, (Operand.byte b).isRegister = true ↔ b.toNat ≤ 7) ∧
  (∀ b : Byte, need (.byte b) = some b) ∧ (∀ r : RegIndex, regIdx (regOperand r) = some r)

/-- R171: a fetched byte that is none of the twelve literals raises UnknownOpcode, recording its address and the byte, whatever
the operands are; every image whose first byte is 0xFF, whatever follows, raises it at its first step. -/
def Obligations.UnknownOpcodeFaults : Prop :=
  (∀ s : State, s.run = .running → s.pc.toNat ≤ 255 →
    s.memRead (BitVec.ofNat 8 s.pc.toNat) ∉ [0x01, 0x82, 0x47, 0xA2, 0x46, 0x45, 0x11, 0x50, 0x54, 0x55, 0x56, (0xA7 : Byte)] →
    step s = .next { s with run := .faulted, fault := some ⟨.unknownOpcode, s.pc, some (s.memRead (BitVec.ofNat 8 s.pc.toNat))⟩ }) ∧
  (∀ (s t : State) (r : FaultRecord), s.run = .running → s.fault = none → step s = .next t → t.fault = some r →
    r.kind = .unknownOpcode →
    s.pc.toNat ≤ 255 ∧
    s.memRead (BitVec.ofNat 8 s.pc.toNat) ∉ [0x01, 0x82, 0x47, 0xA2, 0x46, 0x45, 0x11, 0x50, 0x54, 0x55, 0x56, (0xA7 : Byte)]) ∧
  (∀ (sp : Byte) (rest : List Nat), rest.length ≤ 255 → (∀ n ∈ rest, n ≤ 255) →
    ∃ s, launch sp (0xFF :: rest) = .ok s ∧
      step s = .next { s with run := .faulted, fault := some ⟨.unknownOpcode, 0, some 0xFF⟩ })

/-- 60_exceptions.md section 1, the table of OutOfBounds: a step raises OutOfBounds exactly where one of its causes holds. The stack
and return-address causes are the spec's own decisions (D8, D9, D10; log entry 17). -/
def Obligations.OutOfBoundsCausesAreComplete : Prop :=
  ∀ s t : State, s.run = .running → s.fault = none → step s = .next t →
    ((∃ r, t.fault = some r ∧ r.kind = .outOfBounds) ↔ OutOfBoundsCause s)

/-- 42_stack.md section on the stack pointer's range: the stack pointer never wraps, and a return address above 255 is not stored;
the instruction raises OutOfBounds instead. The spec's own decisions (D8, D9, D10; log entry 17). -/
def Obligations.StackPointerNeverWraps : Prop :=
  (∀ (s : State) (r : RegIndex), s.sp = 0 →
    exec (.push (regOperand r)) s = .next (s.raise .outOfBounds (some 0x45)) ∧
    exec (.call (regOperand r)) s = .next (s.raise .outOfBounds (some 0x50))) ∧
  (∀ (s : State) (r : RegIndex), 254 ≤ s.pc.toNat →
    exec (.call (regOperand r)) s = .next (s.raise .outOfBounds (some 0x50))) ∧
  (∀ (s : State) (r : RegIndex), (if r = 7 then s.memRead s.sp else s.sp) = 255 →
    exec (.pop (regOperand r)) s = .next (s.raise .outOfBounds (some 0x46))) ∧
  (∀ s : State, s.sp = 255 → exec .ret s = .next (s.raise .outOfBounds (some 0x11)))

/-- R173: the ALU answers UnsupportedALU for a code outside ADD, MUL, CMP, and an instruction given such a code would raise it;
but no run of the core from a state without a recorded fault ever records it. -/
def Obligations.UnsupportedAluNeverRaised : Prop :=
  (∀ (a b : RegIndex) (s : State), alu .other a b s = .error .unsupportedALU) ∧
  (∀ (op : AluOp) (a b : RegIndex) (s : State), op ≠ .other → ∃ t, alu op a b s = .ok t) ∧
  (∀ (ir : Byte) (a b : RegIndex) (s : State),
    aluInstr ir .other (regOperand a) (regOperand b) s = .next (s.raise .unsupportedALU (some ir))) ∧
  (∀ (s t : State), s.fault = none → Reaches s t → ∀ r, t.fault = some r → r.kind ≠ .unsupportedALU)

/-- 60_exceptions.md section 2: a step that ends FAULTED changed nothing but STATE and FAULT, and the record holds the pc the
faulting instruction stands at. That faults are precise is the spec's own decision (D11; log entry 18). -/
def Obligations.FaultsArePrecise : Prop :=
  ∀ s t : State, s.run = .running → step s = .next t → t.run = .faulted →
    ∃ k o, t = { s with run := .faulted, fault := some ⟨k, s.pc, o⟩ } ∧
      (o = none ↔ 255 < s.pc.toNat) ∧ (s.pc.toNat ≤ 255 → o = s.bytesAtPc.head?)

/-- 40_fetch_decode_execute.md section 4: a running core leaves RUNNING in exactly two ways: HLT, with exit status 0, or a recorded
fault, with its non-zero code. The numbers of the codes are the spec's own decision (D12; log entry 14). -/
def Obligations.RunEndsByHaltOrFault : Prop :=
  (∀ s t : State, s.run = .running → s.fault = none → step s = .next t → t.run ≠ .running →
    (AtInstr s .hlt ∧ t.run = .halted ∧ t.fault = none ∧ t.exitStatus = some 0) ∨
    (t.run = .faulted ∧ ∃ r n, t.fault = some r ∧ t.exitStatus = some n ∧ n ≠ 0 ∧ n = r.kind.code)) ∧
  (∀ s : State, AtInstr s .hlt → ∃ t, step s = .next t ∧ t.run = .halted) ∧
  (∀ s : State, s.run = .running → s.exitStatus = none)

/-! ### Whole-machine frames -/

/-- R28: FL is written by CMP, which replaces it whatever it held, and by nothing else; a fault leaves it unchanged; and it is
read by JEQ and JNE, whose next pc depends on it wherever their two targets differ, and by nothing else: any other instruction
does the same to the rest of the state whatever FL is. -/
def Obligations.FlagWrittenByCmpReadByConditionalJumps : Prop :=
  (∀ (s : State) (a b : RegIndex), ∃ t,
    (∀ f : Flag, exec (.cmp (regOperand a) (regOperand b)) { s with fl := f } = .next t) ∧
    (t.fl.value = 1 ↔ s.readReg a = s.readReg b) ∧ t.fl.value ∈ [1, 2, 4]) ∧
  (∀ (i : Instr) (s t : State), exec i s = .next t → (∀ a b, i ≠ .cmp a b) → t.fl = s.fl) ∧
  (∀ s t : State, step s = .next t → t.run = .faulted → t.fl = s.fl) ∧
  (∀ (i : Instr) (s t : State) (f : Flag), (∀ a, i ≠ .jeq a) → (∀ a, i ≠ .jne a) → exec i s = .next t →
    ∃ t', exec i { s with fl := f } = .next t' ∧ { t' with fl := t.fl } = t) ∧
  (∀ (s : State) (r : RegIndex) (f : Flag), zext9 (s.readReg r) ≠ s.pc + 2 → f.value ≠ 1 →
    (∃ t u, exec (.jeq (regOperand r)) { s with fl := .equal } = .next t ∧
      exec (.jeq (regOperand r)) { s with fl := f } = .next u ∧ t.pc ≠ u.pc) ∧
    (∃ t u, exec (.jne (regOperand r)) { s with fl := .equal } = .next t ∧
      exec (.jne (regOperand r)) { s with fl := f } = .next u ∧ t.pc ≠ u.pc))

/-- 10_state.md section 2, the table of register writes: no instruction writes a register outside its row. -/
def Obligations.RegistersWrittenAsListed : Prop :=
  ∀ (i : Instr) (s t : State), exec i s = .next t → RegsSameBut (writtenRegs i) s t

/-- 20_memory.md section 1: only PUSH and CALL write memory, and only the cell below the stack pointer; only POP and RET read data,
and only the cell at the stack pointer: what any instruction does to the rest of the state depends on no other cell. -/
def Obligations.MemoryAccessedThroughStackPointerOnly : Prop :=
  (∀ (i : Instr) (s t : State), exec i s = .next t →
    (stores i = false → MemSame s t) ∧ (stores i = true → MemSameBut (s.sp - 1) s t)) ∧
  (∀ (i : Instr) (s t : State) (m : Memory), exec i s = .next t →
    ((i = .ret ∨ ∃ a, i = .pop a) → m.read s.sp.toNat = s.memRead s.sp) →
    ∃ t', exec i { s with mem := m } = .next t' ∧ { t' with mem := t.mem } = t)

/-- R162: every value of OUT is emitted by a PRN step, complete when that step ends; a step appends and never removes or
reorders; and no step observes what OUT holds. -/
def Obligations.OutputGrowsByPrnOnly : Prop :=
  (∀ (s : State) (v : Byte), (s.emit v).out = s.out ++ [v]) ∧
  (∀ s t : State, step s = .next t →
    t.out = s.out ∨ ∃ r, AtInstr s (.prn (regOperand r)) ∧ t.out = s.out ++ [s.readReg r]) ∧
  (∀ (s : State) (r : RegIndex), AtInstr s (.prn (regOperand r)) →
    ∃ t, step s = .next t ∧ t.out = s.out ++ [s.readReg r]) ∧
  (∀ (s t : State) (o : List Byte), step s = .next t →
    ∃ d, t.out = s.out ++ d ∧ step { s with out := o } = .next { t with out := o ++ d })

/-! ### Invariants -/

/-- 10_state.md section 9: the launch state of every image, and so reset, meets the invariant. Its clause that memory is
canonical is the model's choice of representation (log entry 5); that reset leaves pc 0 is the spec's own decision (D6; log
entry 4). -/
def Obligations.LaunchMeetsInvariant : Prop :=
  (∀ sp : Byte, Inv (State.resetWith sp)) ∧
  (∀ (sp : Byte) (image : List Nat) (s : State), launch sp image = .ok s → Inv s)

/-- 10_state.md section 9: from every state that meets the invariant, a step gives a state that meets it: pc at most 256, FAULT
none exactly when STATE is not FAULTED, and a recorded fault the faulting instruction's own. Its further clause that memory is
canonical is the model's choice of representation (log entry 5). The 9-bit pc and what a fault records are the spec's own
decisions (D1, D11, D22; log entries 23 and 18). -/
def Obligations.EveryStepKeepsInvariant : Prop :=
  ∀ s t : State, Inv s → step s = .next t → Inv t

/-- 20_memory.md section 1: two memories in canonical form whose 256 cells hold the same bytes are the same list, so that equal
memories are equal data (the model's choice of representation, log entry 5). -/
def Obligations.CanonicalMemoriesWithEqualCellsAreEqual : Prop :=
  ∀ m n : Memory, m.wf → n.wf → (∀ a : Byte, m.read a.toNat = n.read a.toNat) → m = n

/-! ### The output sink -/

/-- 44_load_print.md section on the sink's text: a printed value is its shortest unsigned decimal numeral, of one to three digits.
The spec marks this as general knowledge (K2; log entry 13). -/
def Obligations.PrintedNumeralIsShortestDecimal : Prop :=
  ∀ v : Byte,
    (decimalNumeral v).foldl (fun n c => 10 * n + (c.toNat - '0'.toNat)) 0 = v.toNat ∧
    (decimalNumeral v).all Char.isDigit = true ∧
    1 ≤ (decimalNumeral v).length ∧ (decimalNumeral v).length ≤ 3 ∧
    ((decimalNumeral v).head? = some '0' → decimalNumeral v = ['0'])
end

