-- ==== Sys2Proof/Laws/State.lean ====
section
/-! SUPPORT. One lemma per field per update of State, each true by rfl, and what a register read or a memory read sees of
each update; tagged simp, so that no later proof unfolds a record update. -/

namespace Sys2Proof.Machine

/-! ### Writing a register -/

@[simp] theorem State.writeReg_regs (s : State) (i : RegIndex) (v : Byte) : (s.writeReg i v).regs = s.regs.set i v := rfl
@[simp] theorem State.writeReg_pc (s : State) (i : RegIndex) (v : Byte) : (s.writeReg i v).pc = s.pc := rfl
@[simp] theorem State.writeReg_fl (s : State) (i : RegIndex) (v : Byte) : (s.writeReg i v).fl = s.fl := rfl
@[simp] theorem State.writeReg_mem (s : State) (i : RegIndex) (v : Byte) : (s.writeReg i v).mem = s.mem := rfl
@[simp] theorem State.writeReg_run (s : State) (i : RegIndex) (v : Byte) : (s.writeReg i v).run = s.run := rfl
@[simp] theorem State.writeReg_fault (s : State) (i : RegIndex) (v : Byte) : (s.writeReg i v).fault = s.fault := rfl
@[simp] theorem State.writeReg_out (s : State) (i : RegIndex) (v : Byte) : (s.writeReg i v).out = s.out := rfl
@[simp] theorem State.writeReg_memRead (s : State) (i : RegIndex) (v : Byte) (q : Byte) : (s.writeReg i v).memRead q = s.memRead q := rfl

/-! ### Storing a byte -/

@[simp] theorem State.memWrite_regs (s : State) (a v : Byte) : (s.memWrite a v).regs = s.regs := rfl
@[simp] theorem State.memWrite_pc (s : State) (a v : Byte) : (s.memWrite a v).pc = s.pc := rfl
@[simp] theorem State.memWrite_fl (s : State) (a v : Byte) : (s.memWrite a v).fl = s.fl := rfl
@[simp] theorem State.memWrite_mem (s : State) (a v : Byte) : (s.memWrite a v).mem = s.mem.write a.toNat v := rfl
@[simp] theorem State.memWrite_run (s : State) (a v : Byte) : (s.memWrite a v).run = s.run := rfl
@[simp] theorem State.memWrite_fault (s : State) (a v : Byte) : (s.memWrite a v).fault = s.fault := rfl
@[simp] theorem State.memWrite_out (s : State) (a v : Byte) : (s.memWrite a v).out = s.out := rfl
@[simp] theorem State.memWrite_readReg (s : State) (a v : Byte) (q : RegIndex) : (s.memWrite a v).readReg q = s.readReg q := rfl
@[simp] theorem State.memWrite_sp (s : State) (a v : Byte) : (s.memWrite a v).sp = s.sp := rfl

/-! ### Advancing pc -/

@[simp] theorem State.advance_regs (s : State) (n : Nat) : (s.advance n).regs = s.regs := rfl
@[simp] theorem State.advance_pc (s : State) (n : Nat) : (s.advance n).pc = s.pc + BitVec.ofNat 9 n := rfl
@[simp] theorem State.advance_fl (s : State) (n : Nat) : (s.advance n).fl = s.fl := rfl
@[simp] theorem State.advance_mem (s : State) (n : Nat) : (s.advance n).mem = s.mem := rfl
@[simp] theorem State.advance_run (s : State) (n : Nat) : (s.advance n).run = s.run := rfl
@[simp] theorem State.advance_fault (s : State) (n : Nat) : (s.advance n).fault = s.fault := rfl
@[simp] theorem State.advance_out (s : State) (n : Nat) : (s.advance n).out = s.out := rfl
@[simp] theorem State.advance_readReg (s : State) (n : Nat) (q : RegIndex) : (s.advance n).readReg q = s.readReg q := rfl
@[simp] theorem State.advance_sp (s : State) (n : Nat) : (s.advance n).sp = s.sp := rfl
@[simp] theorem State.advance_memRead (s : State) (n : Nat) (q : Byte) : (s.advance n).memRead q = s.memRead q := rfl

/-! ### Jumping -/

@[simp] theorem State.jumpTo_regs (s : State) (v : Byte) : (s.jumpTo v).regs = s.regs := rfl
@[simp] theorem State.jumpTo_pc (s : State) (v : Byte) : (s.jumpTo v).pc = zext9 v := rfl
@[simp] theorem State.jumpTo_fl (s : State) (v : Byte) : (s.jumpTo v).fl = s.fl := rfl
@[simp] theorem State.jumpTo_mem (s : State) (v : Byte) : (s.jumpTo v).mem = s.mem := rfl
@[simp] theorem State.jumpTo_run (s : State) (v : Byte) : (s.jumpTo v).run = s.run := rfl
@[simp] theorem State.jumpTo_fault (s : State) (v : Byte) : (s.jumpTo v).fault = s.fault := rfl
@[simp] theorem State.jumpTo_out (s : State) (v : Byte) : (s.jumpTo v).out = s.out := rfl
@[simp] theorem State.jumpTo_readReg (s : State) (v : Byte) (q : RegIndex) : (s.jumpTo v).readReg q = s.readReg q := rfl
@[simp] theorem State.jumpTo_sp (s : State) (v : Byte) : (s.jumpTo v).sp = s.sp := rfl
@[simp] theorem State.jumpTo_memRead (s : State) (v : Byte) (q : Byte) : (s.jumpTo v).memRead q = s.memRead q := rfl

/-! ### Emitting a value -/

@[simp] theorem State.emit_regs (s : State) (v : Byte) : (s.emit v).regs = s.regs := rfl
@[simp] theorem State.emit_pc (s : State) (v : Byte) : (s.emit v).pc = s.pc := rfl
@[simp] theorem State.emit_fl (s : State) (v : Byte) : (s.emit v).fl = s.fl := rfl
@[simp] theorem State.emit_mem (s : State) (v : Byte) : (s.emit v).mem = s.mem := rfl
@[simp] theorem State.emit_run (s : State) (v : Byte) : (s.emit v).run = s.run := rfl
@[simp] theorem State.emit_fault (s : State) (v : Byte) : (s.emit v).fault = s.fault := rfl
@[simp] theorem State.emit_out (s : State) (v : Byte) : (s.emit v).out = s.out ++ [v] := rfl
@[simp] theorem State.emit_readReg (s : State) (v : Byte) (q : RegIndex) : (s.emit v).readReg q = s.readReg q := rfl
@[simp] theorem State.emit_sp (s : State) (v : Byte) : (s.emit v).sp = s.sp := rfl
@[simp] theorem State.emit_memRead (s : State) (v : Byte) (q : Byte) : (s.emit v).memRead q = s.memRead q := rfl

/-! ### Halting -/

@[simp] theorem State.halt_regs (s : State) : (s.halt).regs = s.regs := rfl
@[simp] theorem State.halt_pc (s : State) : (s.halt).pc = s.pc := rfl
@[simp] theorem State.halt_fl (s : State) : (s.halt).fl = s.fl := rfl
@[simp] theorem State.halt_mem (s : State) : (s.halt).mem = s.mem := rfl
@[simp] theorem State.halt_run (s : State) : (s.halt).run = .halted := rfl
@[simp] theorem State.halt_fault (s : State) : (s.halt).fault = s.fault := rfl
@[simp] theorem State.halt_out (s : State) : (s.halt).out = s.out := rfl
@[simp] theorem State.halt_readReg (s : State) (q : RegIndex) : (s.halt).readReg q = s.readReg q := rfl
@[simp] theorem State.halt_sp (s : State) : (s.halt).sp = s.sp := rfl
@[simp] theorem State.halt_memRead (s : State) (q : Byte) : (s.halt).memRead q = s.memRead q := rfl

/-! ### Raising a fault -/

@[simp] theorem State.raise_regs (s : State) (k : FaultKind) (o : Option Byte) : (s.raise k o).regs = s.regs := rfl
@[simp] theorem State.raise_pc (s : State) (k : FaultKind) (o : Option Byte) : (s.raise k o).pc = s.pc := rfl
@[simp] theorem State.raise_fl (s : State) (k : FaultKind) (o : Option Byte) : (s.raise k o).fl = s.fl := rfl
@[simp] theorem State.raise_mem (s : State) (k : FaultKind) (o : Option Byte) : (s.raise k o).mem = s.mem := rfl
@[simp] theorem State.raise_run (s : State) (k : FaultKind) (o : Option Byte) : (s.raise k o).run = .faulted := rfl
@[simp] theorem State.raise_fault (s : State) (k : FaultKind) (o : Option Byte) : (s.raise k o).fault = some ⟨k, s.pc, o⟩ := rfl
@[simp] theorem State.raise_out (s : State) (k : FaultKind) (o : Option Byte) : (s.raise k o).out = s.out := rfl
@[simp] theorem State.raise_readReg (s : State) (k : FaultKind) (o : Option Byte) (q : RegIndex) : (s.raise k o).readReg q = s.readReg q := rfl
@[simp] theorem State.raise_sp (s : State) (k : FaultKind) (o : Option Byte) : (s.raise k o).sp = s.sp := rfl
@[simp] theorem State.raise_memRead (s : State) (k : FaultKind) (o : Option Byte) (q : Byte) : (s.raise k o).memRead q = s.memRead q := rfl

/-! ### Reset -/

@[simp] theorem State.resetWith_pc (v : Byte) : (State.resetWith v).pc = 0 := rfl
@[simp] theorem State.resetWith_fl (v : Byte) : (State.resetWith v).fl = .notCompared := rfl
@[simp] theorem State.resetWith_mem (v : Byte) : (State.resetWith v).mem = [] := rfl
@[simp] theorem State.resetWith_run (v : Byte) : (State.resetWith v).run = .running := rfl
@[simp] theorem State.resetWith_fault (v : Byte) : (State.resetWith v).fault = none := rfl
@[simp] theorem State.resetWith_out (v : Byte) : (State.resetWith v).out = [] := rfl

/-! ### Registers: what a read sees of a write -/

theorem State.writeReg_readReg (s : State) (i q : RegIndex) (v : Byte) :
    (s.writeReg i v).readReg q = if q = i then v else s.readReg q := by
  simp only [State.writeReg, State.readReg, Fin.getElem_fin, Vector.getElem_set, Fin.ext_iff, eq_comm]

@[simp] theorem State.writeReg_readReg_same (s : State) (i : RegIndex) (v : Byte) :
    (s.writeReg i v).readReg i = v := by simp [State.writeReg_readReg]

@[simp] theorem State.writeReg_readReg_of_ne (s : State) {i q : RegIndex} (v : Byte) (h : q ≠ i) :
    (s.writeReg i v).readReg q = s.readReg q := by simp [State.writeReg_readReg, h]

theorem State.writeReg_sp (s : State) (i : RegIndex) (v : Byte) :
    (s.writeReg i v).sp = if i = 7 then v else s.sp := by
  simp only [State.sp, State.writeReg_readReg, eq_comm]

/-- The stack pointer is register 7. -/
theorem State.readReg_seven (s : State) : s.readReg 7 = s.sp := rfl

/-! ### The stack pointer, written as register 7 -/

@[simp] theorem State.writeSp_pc (s : State) (v : Byte) : (s.writeSp v).pc = s.pc := rfl
@[simp] theorem State.writeSp_fl (s : State) (v : Byte) : (s.writeSp v).fl = s.fl := rfl
@[simp] theorem State.writeSp_mem (s : State) (v : Byte) : (s.writeSp v).mem = s.mem := rfl
@[simp] theorem State.writeSp_run (s : State) (v : Byte) : (s.writeSp v).run = s.run := rfl
@[simp] theorem State.writeSp_fault (s : State) (v : Byte) : (s.writeSp v).fault = s.fault := rfl
@[simp] theorem State.writeSp_out (s : State) (v : Byte) : (s.writeSp v).out = s.out := rfl
@[simp] theorem State.writeSp_memRead (s : State) (v q : Byte) : (s.writeSp v).memRead q = s.memRead q := rfl
@[simp] theorem State.writeSp_sp (s : State) (v : Byte) : (s.writeSp v).sp = v := by
  simp [State.writeSp, State.writeReg_sp]

theorem State.writeSp_readReg (s : State) (q : RegIndex) (v : Byte) :
    (s.writeSp v).readReg q = if q = 7 then v else s.readReg q := State.writeReg_readReg s 7 q v

end Sys2Proof.Machine
end

