-- ==== Sys2Proof/Laws/Ops.lean ====
section
/-! SUPPORT. One lemma per shared operation that says once everything it can do; later proofs cite it instead of unfolding
the operation. -/

namespace Sys2Proof.Machine

/-- The decrement answers none exactly at stack pointer 0, and otherwise writes the pointer one lower (42_stack.md R144). -/
theorem State.decSp_cases (s : State) :
    (s.sp = 0 ∧ s.decSp = none) ∨ (s.sp ≠ 0 ∧ s.decSp = some (s.writeSp (s.sp - 1))) := by
  unfold State.decSp; split <;> simp_all

/-- The increment answers none exactly at stack pointer 255, and otherwise writes the pointer one higher (R144). -/
theorem State.incSp_cases (s : State) :
    (s.sp = 255 ∧ s.incSp = none) ∨ (s.sp ≠ 255 ∧ s.incSp = some (s.writeSp (s.sp + 1))) := by
  unfold State.incSp; split <;> simp_all

/-- `zext_9` keeps the number. -/
@[simp] theorem zext9_toNat (v : Byte) : (zext9 v).toNat = v.toNat := by
  have := v.isLt
  simp only [zext9, BitVec.toNat_setWidth]
  omega

/-- From an address 0 to 255 the sequential advance is exact (10_state.md R26). -/
theorem State.advance_pc_toNat {s : State} {n : Nat} (hs : s.pc.toNat ≤ 255) (hn : n ≤ 3) :
    (s.advance n).pc.toNat = s.pc.toNat + n := by
  simp only [State.advance_pc, BitVec.toNat_add, BitVec.toNat_ofNat]
  omega

/-- Placing bytes changes memory alone. -/
theorem State.placeBytes_frame (s : State) (a : Nat) (bs : List Byte) :
    (s.placeBytes a bs).regs = s.regs ∧ (s.placeBytes a bs).pc = s.pc ∧ (s.placeBytes a bs).fl = s.fl ∧
    (s.placeBytes a bs).run = s.run ∧ (s.placeBytes a bs).fault = s.fault ∧ (s.placeBytes a bs).out = s.out := by
  induction bs generalizing s a with
  | nil => exact ⟨rfl, rfl, rfl, rfl, rfl, rfl⟩
  | cons b bs ih =>
    unfold State.placeBytes
    obtain ⟨h1, h2, h3, h4, h5, h6⟩ := ih (if a ≤ 255 then s.memWrite (BitVec.ofNat 8 a) b else s) (a + 1)
    rw [h1, h2, h3, h4, h5, h6]
    split <;> simp

/-- A cell the placed bytes cover holds its byte, and every other cell what it held. -/
theorem State.placeBytes_memRead (s : State) (a : Nat) (bs : List Byte) (b : Byte) (h : a + bs.length ≤ 256) :
    (s.placeBytes a bs).memRead b =
      if a ≤ b.toNat then bs.getD (b.toNat - a) (s.memRead b) else s.memRead b := by
  induction bs generalizing s a with
  | nil => simp [State.placeBytes]
  | cons c bs ih =>
    simp only [List.length_cons] at h
    have ha : (BitVec.ofNat 8 a).toNat = a := by simp only [BitVec.toNat_ofNat]; omega
    unfold State.placeBytes
    rw [ih _ _ (by omega), if_pos (show a ≤ 255 by omega), State.memWrite_memRead]
    by_cases hab : b = BitVec.ofNat 8 a
    · simp [hab, ha]
    · have hne : b.toNat ≠ a := fun hc => hab (BitVec.eq_of_toNat_eq (hc.trans ha.symm))
      rw [if_neg hab]
      by_cases h1 : a + 1 ≤ b.toNat
      · rw [if_pos h1, if_pos (by omega), show b.toNat - a = (b.toNat - (a + 1)) + 1 by omega, List.getD_cons_succ]
      · rw [if_neg h1, if_neg (by omega)]

/-- Placing bytes keeps the canonical form. -/
theorem State.placeBytes_wf {s : State} (a : Nat) (bs : List Byte) (h : s.mem.wf) : (s.placeBytes a bs).mem.wf := by
  induction bs generalizing s a with
  | nil => exact h
  | cons b bs ih =>
    unfold State.placeBytes
    refine ih (a + 1) ?_
    split
    · exact State.memWrite_wf _ b h
    · exact h

end Sys2Proof.Machine
end

