-- ==== Sys2Proof/Laws/Fetch.lean ====
section
/-! SUPPORT. What fetch and decode can do (40_fetch_decode_execute.md R110, R111), and what a step is made of. -/

namespace Sys2Proof.Machine

/-- Every opcode byte selects an instruction or is rejected with its value (30_encoding.md R85). -/
theorem decode_cases (l : Latches) :
    (∃ i, decode l = .instr i ∧ i.opcode = l.ir) ∨ decode l = .reject (.unknownOpcode l.ir) := by
  by_cases hk : l.ir ∈ [opHlt, opLdi, opPrn, opMul, opCmp, opPush, opPop, opCall, opRet, opJmp, opJeq, opJne]
  · left
    obtain ⟨ir, a, b⟩ := l
    simp only [List.mem_cons, List.not_mem_nil, or_false] at hk
    rcases hk with rfl | rfl | rfl | rfl | rfl | rfl | rfl | rfl | rfl | rfl | rfl | rfl <;> exact ⟨_, rfl, rfl⟩
  · right
    simp only [List.mem_cons, List.not_mem_nil, or_false, not_or] at hk
    simp only [decode, hk, if_false]

/-- In a running state: the fetch fault, the unknown-opcode fault, or an instruction to execute. -/
theorem fetchRunning_cases (s : State) :
    (s.latches = none ∧ fetchRunning s = .raised (s.raise .outOfBounds none)) ∨
    (∃ l, s.latches = some l ∧ decode l = .reject (.unknownOpcode l.ir) ∧
      fetchRunning s = .raised (s.raise .unknownOpcode (some l.ir))) ∨
    (∃ l i, s.latches = some l ∧ decode l = .instr i ∧ i.opcode = l.ir ∧ fetchRunning s = .run i) := by
  unfold fetchRunning
  cases h : s.latches with
  | none => exact .inl ⟨rfl, rfl⟩
  | some l =>
    rcases decode_cases l with ⟨i, hi, ho⟩ | hr
    · exact .inr (.inr ⟨l, i, rfl, hi, ho, by simp [hi]⟩)
    · exact .inr (.inl ⟨l, rfl, hr, by simp [hr]⟩)

/-- A step of a running state, in terms of its fetch. -/
theorem step_running {s : State} (h : s.run = .running) :
    step s = match fetchRunning s with
      | .ended r => .fault r
      | .raised t => .next t
      | .run i => exec i s := by
  cases hf : fetchRunning s <;> simp only [step, fetch, h, hf]

/-- A state whose step answers a next state was running. -/
theorem running_of_step {s t : State} (h : step s = .next t) : s.run = .running := by
  unfold step fetch at h
  cases hr : s.run <;> simp_all

end Sys2Proof.Machine
end

