-- ==== Sys2Proof/Laws/Flags.lean ====
section
/-! SUPPORT. The flags register's values (10_state.md R27) and what CMP puts there (41_alu.md R131). -/

namespace Sys2Proof.Machine

/-- The four values are distinct numbers. -/
theorem Flag.value_inj (f g : Flag) : f.value = g.value ↔ f = g := by cases f <;> cases g <;> decide

/-- FL equals 1 exactly after a compare of equal values. -/
theorem flagIsEqual_iff (s : State) : s.flagIsEqual = true ↔ s.fl.value = 1 := by simp [State.flagIsEqual]

/-- The three outcomes of a compare, in the spec's order. -/
theorem compareFlag_cases (l r : Byte) :
    (l = r ∧ compareFlag l r = .equal) ∨ (r.toNat < l.toNat ∧ compareFlag l r = .greater) ∨
    (l.toNat < r.toNat ∧ compareFlag l r = .less) := by
  unfold compareFlag
  by_cases h : l = r
  · exact .inl ⟨h, if_pos h⟩
  · have hn : l.toNat ≠ r.toNat := fun hn => h (BitVec.eq_of_toNat_eq hn)
    by_cases hg : l.toNat > r.toNat
    · exact .inr (.inl ⟨hg, by rw [if_neg h, if_pos hg]⟩)
    · exact .inr (.inr ⟨by omega, by rw [if_neg h, if_neg hg]⟩)

end Sys2Proof.Machine
end

