-- ==== Sys2Proof/Laws/Operands.lean ====
section
/-! SUPPORT. What operand use can do (40_fetch_decode_execute.md R112). -/

namespace Sys2Proof.Machine

/-- A register operand is one of the eight, and no other operand is. -/
theorem regIdx_eq_some_iff (op : Operand) (r : RegIndex) : regIdx op = some r ↔ op = regOperand r := by
  cases op with
  | absent => simp [regIdx, regOperand]
  | byte b =>
    simp only [regIdx, regOperand, Operand.byte.injEq]
    constructor
    · intro h
      split at h
      · simp only [Option.some.injEq] at h
        subst h
        simp
      · cases h
    · rintro rfl
      have := r.isLt
      rw [dif_pos (by simp; omega)]
      simp [Fin.ext_iff]
      omega

@[simp] theorem regIdx_regOperand (r : RegIndex) : regIdx (regOperand r) = some r :=
  (regIdx_eq_some_iff _ _).mpr rfl

/-- An operand gives no register index exactly where it is not well formed as one. -/
theorem regIdx_eq_none_iff (op : Operand) : regIdx op = none ↔ op.isRegister = false := by
  cases op with
  | absent => simp [regIdx, Operand.isRegister]
  | byte b => simp only [regIdx, Operand.isRegister]; split <;> simp <;> omega

theorem need_eq_none_iff (op : Operand) : need op = none ↔ op.isPresent = false := by
  cases op <;> simp [need, Operand.isPresent]

@[simp] theorem need_byte (b : Byte) : need (.byte b) = some b := rfl

@[simp] theorem withReg_regOperand (ir : Byte) (r : RegIndex) (s : State) (k : RegIndex → Result) :
    withReg ir (regOperand r) s k = k r := by simp [withReg]

@[simp] theorem withImm_byte (ir b : Byte) (s : State) (k : Byte → Result) : withImm ir (.byte b) s k = k b := rfl

theorem withReg_of_not_register {op : Operand} (h : op.isRegister = false) (ir : Byte) (s : State)
    (k : RegIndex → Result) : withReg ir op s k = outOfBounds ir s := by
  simp [withReg, (regIdx_eq_none_iff op).mpr h]

theorem withImm_of_absent {op : Operand} (h : op.isPresent = false) (ir : Byte) (s : State) (k : Byte → Result) :
    withImm ir op s k = outOfBounds ir s := by
  simp [withImm, (need_eq_none_iff op).mpr h]

/-- A register operand either goes on with its index or raises OutOfBounds. -/
theorem withReg_cases (ir : Byte) (op : Operand) (s : State) (k : RegIndex → Result) :
    (op.isRegister = false ∧ withReg ir op s k = outOfBounds ir s) ∨
    (∃ r, op = regOperand r ∧ withReg ir op s k = k r) := by
  cases h : regIdx op with
  | none =>
    have h' := (regIdx_eq_none_iff op).mp h
    exact .inl ⟨h', withReg_of_not_register h' ir s k⟩
  | some r =>
    have h' := (regIdx_eq_some_iff op r).mp h
    exact .inr ⟨r, h', by rw [h', withReg_regOperand]⟩

/-- An immediate operand either goes on with its byte or raises OutOfBounds. -/
theorem withImm_cases (ir : Byte) (op : Operand) (s : State) (k : Byte → Result) :
    (op = .absent ∧ withImm ir op s k = outOfBounds ir s) ∨ (∃ b, op = .byte b ∧ withImm ir op s k = k b) := by
  cases op with
  | absent => exact .inl ⟨rfl, rfl⟩
  | byte b => exact .inr ⟨b, rfl, rfl⟩

@[simp] theorem isRegister_regOperand (r : RegIndex) : (regOperand r).isRegister = true := by
  cases h : (regOperand r).isRegister with
  | true => rfl
  | false => simpa using (regIdx_eq_none_iff _).mpr h

end Sys2Proof.Machine
end

