-- ==== Sys2Proof/Laws/Exec.lean ====
section
/-! SUPPORT. What each instruction does where it completes, as one equation per instruction; the faults are those of
`withReg_cases`, `decSp_cases` and `incSp_cases`. -/

namespace Sys2Proof.Machine

theorem State.decSp_of_ne {s : State} (h : s.sp ≠ 0) : s.decSp = some (s.writeSp (s.sp - 1)) := if_neg h

theorem State.incSp_of_ne {s : State} (h : s.sp ≠ 255) : s.incSp = some (s.writeSp (s.sp + 1)) := if_neg h

theorem exec_hlt (s : State) : exec .hlt s = .next (s.advance 1).halt := rfl

theorem exec_ldi (s : State) (r : RegIndex) (v : Byte) :
    exec (.ldi (regOperand r) (.byte v)) s = .next ((s.writeReg r v).advance 3) := by simp [exec, execLdi]

theorem exec_prn (s : State) (r : RegIndex) :
    exec (.prn (regOperand r)) s = .next ((s.emit (s.readReg r)).advance 2) := by simp [exec, execPrn]

theorem exec_mul (s : State) (a b : RegIndex) :
    exec (.mul (regOperand a) (regOperand b)) s =
      .next ((s.writeReg a (s.readReg a * s.readReg b)).advance 3) := by simp [exec, execMul, aluInstr, alu]

theorem exec_cmp (s : State) (a b : RegIndex) :
    exec (.cmp (regOperand a) (regOperand b)) s =
      .next (({ s with fl := compareFlag (s.readReg a) (s.readReg b) } : State).advance 3) := by
  simp [exec, execCmp, aluInstr, alu]

theorem exec_push {s : State} (r : RegIndex) (h : s.sp ≠ 0) :
    exec (.push (regOperand r)) s =
      .next (((s.writeSp (s.sp - 1)).memWrite (s.sp - 1) ((s.writeSp (s.sp - 1)).readReg r)).advance 2) := by
  simp only [exec, execPush, withReg_regOperand, State.decSp_of_ne h, State.writeSp_sp]

theorem exec_pop {s : State} (r : RegIndex) (h : (if r = 7 then s.memRead s.sp else s.sp) ≠ 255) :
    exec (.pop (regOperand r)) s =
      .next (((s.writeReg r (s.memRead s.sp)).writeSp
        ((if r = 7 then s.memRead s.sp else s.sp) + 1)).advance 2) := by
  have h' : (s.writeReg r (s.memRead s.sp)).sp ≠ 255 := by rwa [State.writeReg_sp]
  simp only [exec, execPop, withReg_regOperand, State.incSp_of_ne h']
  rw [State.writeReg_sp]

theorem exec_call {s : State} (r : RegIndex) (h : s.sp ≠ 0) (hp : s.pc.toNat + 2 ≤ 255) :
    exec (.call (regOperand r)) s =
      .next (((s.writeSp (s.sp - 1)).memWrite (s.sp - 1) (BitVec.ofNat 8 (s.pc.toNat + 2))).jumpTo
        ((s.writeSp (s.sp - 1)).readReg r)) := by
  simp only [exec, execCall, withReg_regOperand, State.decSp_of_ne h, State.writeSp_sp]
  rw [if_neg (by omega)]

theorem exec_ret {s : State} (h : s.sp ≠ 255) :
    exec .ret s = .next ((s.jumpTo (s.memRead s.sp)).writeSp (s.sp + 1)) := by
  simp only [exec, execRet]
  rw [State.incSp_of_ne (s := s.jumpTo (s.memRead s.sp)) h]
  rfl

theorem exec_jmp (s : State) (r : RegIndex) :
    exec (.jmp (regOperand r)) s = .next (s.jumpTo (s.readReg r)) := by simp [exec, execJmp, jumpInstr]

theorem exec_jeq (s : State) (r : RegIndex) :
    exec (.jeq (regOperand r)) s =
      .next (if s.flagIsEqual then s.jumpTo (s.readReg r) else s.advance 2) := by simp [exec, execJeq, jumpInstr]

theorem exec_jne (s : State) (r : RegIndex) :
    exec (.jne (regOperand r)) s =
      .next (if !s.flagIsEqual then s.jumpTo (s.readReg r) else s.advance 2) := by simp [exec, execJne, jumpInstr]

end Sys2Proof.Machine
end

