-- ==== Sys2Proof/Laws/PerInstr.lean ====
section
/-! SUPPORT. The per-instruction family Encoding: a well-formed instruction's encoding starts with its opcode byte and is as
long as the instruction (30_encoding.md R80, R90). -/

namespace Sys2Proof.Laws.Encoding

/-- What holds of the encoding of instruction `i`. -/
def Statement (i : Instr) : Prop :=
  i.wellFormed = true → (encode i).head? = some i.opcode ∧ (encode i).length = i.length

/-- A register operand contributes one byte. -/
theorem register_bytes {op : Operand} (h : op.isRegister = true) : op.bytes.length = 1 := by
  cases op <;> simp_all [Operand.isRegister, Operand.bytes]

/-- A present operand contributes one byte. -/
theorem present_bytes {op : Operand} (h : op.isPresent = true) : op.bytes.length = 1 := by
  cases op <;> simp_all [Operand.isPresent, Operand.bytes]

theorem no_operand {i : Instr} (h : i.operands = []) : Statement i := fun _ => by simp [encode, Instr.length, h]

theorem one_register {i : Instr} {a : Operand} (h : i.operands = [a]) (ha : i.wellFormed = true → a.isRegister = true) :
    Statement i := fun hw => by simp [encode, Instr.length, h, register_bytes (ha hw)]

theorem two_registers {i : Instr} {a b : Operand} (h : i.operands = [a, b])
    (hab : i.wellFormed = true → a.isRegister = true ∧ b.isRegister = true) : Statement i := fun hw => by
  simp [encode, Instr.length, h, register_bytes (hab hw).1, register_bytes (hab hw).2]

theorem hlt : Statement .hlt := no_operand rfl
theorem ldi (opA opB : Operand) : Statement (.ldi opA opB) := fun hw => by
  have h : opA.isRegister = true ∧ opB.isPresent = true := by simpa [Instr.wellFormed] using hw
  simp [encode, Instr.length, Instr.operands, register_bytes h.1, present_bytes h.2]
theorem prn (opA : Operand) : Statement (.prn opA) := one_register rfl id
theorem mul (opA opB : Operand) : Statement (.mul opA opB) := two_registers rfl (by simp [Instr.wellFormed])
theorem pop (opA : Operand) : Statement (.pop opA) := one_register rfl id
theorem push (opA : Operand) : Statement (.push opA) := one_register rfl id
theorem ret : Statement .ret := no_operand rfl
theorem call (opA : Operand) : Statement (.call opA) := one_register rfl id
theorem jmp (opA : Operand) : Statement (.jmp opA) := one_register rfl id
theorem jeq (opA : Operand) : Statement (.jeq opA) := one_register rfl id
theorem jne (opA : Operand) : Statement (.jne opA) := one_register rfl id
theorem cmp (opA opB : Operand) : Statement (.cmp opA opB) := two_registers rfl (by simp [Instr.wellFormed])

end Sys2Proof.Laws.Encoding
end

