-- ==== Sys2Proof/Tests/Slice0.lean ====
section
/-! SUPPORT. The model's own tests: expected results come from spec/95_test_vectors.md (named in each comment), and for every
statement with hypotheses a witness that meets them. -/

namespace Sys2Proof.Tests

open Sys2Proof Sys2Proof.Machine

/-! ### Decoding: words written out from 30_encoding.md R86 (V-ENC) -/

theorem test_decode_hlt : decodeBytes [0b00000001] = .instr .hlt := by decide
theorem test_decode_ldi : decodeBytes [0b10000010, 3, 200] = .instr (.ldi (.byte 3) (.byte 200)) := by decide
theorem test_decode_prn : decodeBytes [0b01000111, 5] = .instr (.prn (.byte 5)) := by decide
theorem test_decode_mul : decodeBytes [0b10100010, 2, 6] = .instr (.mul (.byte 2) (.byte 6)) := by decide
theorem test_decode_cmp : decodeBytes [0b10100111, 0, 7] = .instr (.cmp (.byte 0) (.byte 7)) := by decide
theorem test_decode_push : decodeBytes [0b01000101, 4] = .instr (.push (.byte 4)) := by decide
theorem test_decode_pop : decodeBytes [0b01000110, 1] = .instr (.pop (.byte 1)) := by decide
theorem test_decode_call : decodeBytes [0b01010000, 6] = .instr (.call (.byte 6)) := by decide
theorem test_decode_ret : decodeBytes [0b00010001] = .instr .ret := by decide
theorem test_decode_jmp : decodeBytes [0b01010100, 2] = .instr (.jmp (.byte 2)) := by decide
theorem test_decode_jeq : decodeBytes [0b01010101, 3] = .instr (.jeq (.byte 3)) := by decide
theorem test_decode_jne : decodeBytes [0b01010110, 0] = .instr (.jne (.byte 0)) := by decide

/-- R91: 0x83 and 0x00 are no opcodes, and no byte is no instruction. -/
theorem test_decode_rejects :
    decodeBytes [0x83, 0, 0] = .reject (.unknownOpcode 0x83) ∧ decodeBytes [0] = .reject (.unknownOpcode 0) ∧
    decodeBytes [] = .reject .noOpcode := by decide

/-- R111: an operand beyond the end of memory is ABSENT. -/
theorem test_decode_absent : decodeBytes [0x82, 0] = .instr (.ldi (.byte 0) .absent) := by decide

/-- R94, a check on the literals: bits 7:6 of each opcode byte are the operand count. -/
theorem test_opcode_bits_are_operand_count :
    ∀ i ∈ [Instr.hlt, .ldi .absent .absent, .prn .absent, .mul .absent .absent, .pop .absent, .push .absent, .ret,
      .call .absent, .jmp .absent, .jeq .absent, .jne .absent, .cmp .absent .absent],
    i.opcode.toNat / 64 = i.operands.length := by decide

/-! ### WellFormed refuses each ill-formed operand -/

theorem test_wellFormed_refuses_high_register :
    (Instr.ldi (.byte 8) (.byte 1)).wellFormed = false ∧ (Instr.prn (.byte 255)).wellFormed = false ∧
    (Instr.mul (.byte 0) (.byte 8)).wellFormed = false ∧ (Instr.mul (.byte 8) (.byte 0)).wellFormed = false ∧
    (Instr.pop (.byte 8)).wellFormed = false ∧ (Instr.push (.byte 8)).wellFormed = false ∧
    (Instr.call (.byte 8)).wellFormed = false ∧ (Instr.jmp (.byte 8)).wellFormed = false ∧
    (Instr.jeq (.byte 8)).wellFormed = false ∧ (Instr.jne (.byte 8)).wellFormed = false ∧
    (Instr.cmp (.byte 8) (.byte 0)).wellFormed = false ∧ (Instr.cmp (.byte 0) (.byte 8)).wellFormed = false := by decide

theorem test_wellFormed_refuses_absent :
    (Instr.ldi .absent (.byte 1)).wellFormed = false ∧ (Instr.ldi (.byte 0) .absent).wellFormed = false ∧
    (Instr.prn .absent).wellFormed = false := by decide

theorem test_wellFormed_accepts :
    (Instr.ldi (.byte 7) (.byte 255)).wellFormed = true ∧ (Instr.cmp (.byte 0) (.byte 7)).wellFormed = true ∧
    Instr.hlt.wellFormed = true := by decide

/-! ### One step of each instruction (95_test_vectors.md section 2) -/

/-- A running state with given registers, pc, FL and memory, and nothing printed. -/
def mk (regs : Vector Byte 8) (pc : PcWord) (fl : Flag) (mem : Memory) : State :=
  { State.reset with regs := regs, pc := pc, fl := fl, mem := mem }

/-- Reset's registers with x[0] and x[7] set. -/
def regs07 (x0 x7 : Byte) : Vector Byte 8 := #v[x0, 0, 0, 0, 0, 0, 0, x7]

/-- S7, V-FLT: the first step after reset, with nothing loaded, raises UnknownOpcode at 0 on byte 0. -/
theorem test_reset_first_step :
    nextState (step State.reset) = some (State.reset.raise .unknownOpcode (some 0)) := by decide

/-- R113, V-END: HLT at 255 halts with pc = 256 and no fault. -/
theorem test_hlt_at_255 :
    nextState (step (mk (regs07 255 244) 255 .notCompared [(255, 1)])) =
      some { mk (regs07 255 244) 256 .notCompared [(255, 1)] with run := .halted } := by decide

/-- R160: 82 00 08 at 0. -/
theorem test_ldi :
    nextState (step (mk (regs07 0 244) 0 .notCompared [(0, 0x82), (2, 8)])) =
      some (mk (regs07 8 244) 3 .notCompared [(0, 0x82), (2, 8)]) := by decide

/-- V-END: LDI at 254 has no second operand byte. -/
theorem test_ldi_at_254 :
    (nextState (step (mk (regs07 254 244) 254 .notCompared [(254, 0x82)]))).map (·.fault) =
      some (some ⟨.outOfBounds, 254, some 0x82⟩) := by decide

/-- R161: 47 00 at 9 with x0 = 72. -/
theorem test_prn :
    (nextState (step (mk (regs07 72 244) 9 .notCompared [(9, 0x47)]))).map (fun t => (t.out, t.pc)) =
      some ([72], 11) := by decide

/-- V-LDP: 47 0A emits nothing. -/
theorem test_prn_bad_register :
    (nextState (step (mk (regs07 72 244) 0 .notCompared [(0, 0x47), (1, 0x0A)]))).map (fun t => (t.out, t.fault)) =
      some ([], some ⟨.outOfBounds, 0, some 0x47⟩) := by decide

/-- V-MUL: 200 * 3 = 88, then 255 * 255 = 1 with the same register twice. -/
theorem test_mul_wraps :
    (nextState (exec (.mul (.byte 0) (.byte 7)) (mk (regs07 200 3) 6 .less []))).map
      (fun t => (t.readReg 0, t.readReg 7, t.fl, t.pc)) = some (88, 3, .less, 9) := by decide
theorem test_mul_same_register :
    (nextState (exec (.mul (.byte 0) (.byte 0)) (mk (regs07 255 3) 6 .less []))).map (·.readReg 0) = some 1 := by decide

/-- V-CMP: 128 against 127 is greater (2), 0 against 255 less (4); FL is replaced. -/
theorem test_cmp_greater :
    (nextState (exec (.cmp (.byte 0) (.byte 7)) (mk (regs07 128 127) 0 .less []))).map (·.fl.value) = some 2 := by decide
theorem test_cmp_less_equal :
    (nextState (exec (.cmp (.byte 0) (.byte 7)) (mk (regs07 0 255) 0 .equal []))).map (·.fl.value) = some 4 ∧
    (nextState (exec (.cmp (.byte 7) (.byte 7)) (mk (regs07 0 255) 0 .less []))).map (·.fl.value) = some 1 := by decide

/-- V-STK: PUSH R0 at 6, and PUSH R7, which stores the decremented pointer. -/
theorem test_push :
    nextState (exec (.push (.byte 0)) (mk (regs07 5 244) 6 .notCompared [])) =
      some (mk (regs07 5 243) 8 .notCompared [(243, 5)]) := by decide
theorem test_push_sp :
    nextState (exec (.push (.byte 7)) (mk (regs07 0 244) 0 .notCompared [])) =
      some (mk (regs07 0 243) 2 .notCompared [(243, 243)]) := by decide

/-- V-STK: POP R2 at 10, and POP R7, which ends at the popped value plus 1. -/
theorem test_pop :
    nextState (exec (.pop (.byte 2)) (mk (regs07 0 243) 10 .notCompared [(243, 5)])) =
      some (mk #v[0, 0, 5, 0, 0, 0, 0, 244] 12 .notCompared [(243, 5)]) := by decide
theorem test_pop_sp :
    (nextState (exec (.pop (.byte 7)) (mk (regs07 0 243) 0 .notCompared [(243, 100)]))).map (·.sp) = some 101 := by decide

/-- V-STK: CALL R1 at 8 with x1 = 16, and CALL R7. -/
theorem test_call :
    nextState (exec (.call (.byte 1)) (mk #v[0, 16, 0, 0, 0, 0, 0, 243] 8 .notCompared [])) =
      some (mk #v[0, 16, 0, 0, 0, 0, 0, 242] 16 .notCompared [(242, 10)]) := by decide
theorem test_call_sp :
    nextState (exec (.call (.byte 7)) (mk (regs07 0 244) 0 .notCompared [])) =
      some (mk (regs07 0 243) 243 .notCompared [(243, 2)]) := by decide

/-- V-STK: RET at 24, and RET with the stack pointer at 255. -/
theorem test_ret :
    nextState (exec .ret (mk (regs07 0 242) 24 .notCompared [(242, 10)])) =
      some (mk (regs07 0 243) 10 .notCompared [(242, 10)]) := by decide
theorem test_ret_at_top :
    (nextState (exec .ret (mk (regs07 0 255) 3 .notCompared []))).map (·.fault) =
      some (some ⟨.outOfBounds, 3, some 0x11⟩) := by decide

/-- V-JMP, with x0 = 30 and the instruction at 9. -/
theorem test_jmp :
    nextState (exec (.jmp (.byte 0)) (mk (regs07 30 244) 9 .notCompared [])) =
      some (mk (regs07 30 244) 30 .notCompared []) := by decide
theorem test_jeq :
    (nextState (exec (.jeq (.byte 0)) (mk (regs07 30 244) 9 .equal []))).map (·.pc) = some 30 ∧
    (nextState (exec (.jeq (.byte 0)) (mk (regs07 30 244) 9 .less []))).map (·.pc) = some 11 := by decide
theorem test_jeq_bad_register_not_taken :
    (nextState (exec (.jeq (.byte 9)) (mk (regs07 30 244) 9 .less []))).map (·.fault) =
      some (some ⟨.outOfBounds, 9, some 0x55⟩) := by decide
theorem test_jne :
    (nextState (exec (.jne (.byte 0)) (mk (regs07 30 244) 9 .notCompared []))).map (·.pc) = some 30 ∧
    (nextState (exec (.jne (.byte 0)) (mk (regs07 30 244) 9 .equal []))).map (·.pc) = some 11 := by decide

/-- R176, V-END: the opcode check precedes the operand checks at 255. -/
theorem test_unknown_opcode_at_255 :
    (nextState (step (mk (regs07 0 244) 255 .notCompared [(255, 0xFF)]))).map (·.fault) =
      some (some ⟨.unknownOpcode, 255, some 0xFF⟩) := by decide

/-- The host's placement: the word is fetched and run as the first instruction after reset. -/
theorem test_withFetchWord :
    (nextState (step (State.reset.withFetchWord 24 0x080082))).map (fun t => (t.readReg 0, t.pc)) = some (8, 3) := by decide

/-- R187, R163: exit status and the sink's text. -/
theorem test_status_and_text :
    (State.reset.raise .outOfBounds none).exitStatus = some 2 ∧ State.reset.halt.exitStatus = some 0 ∧
    State.reset.exitStatus = none ∧ sinkText [' '] [0, 72] = ['0', ' ', '7', '2'] := by decide

/-- R100: the example of the text format. -/
theorem test_parseLines :
    parseLines [['1', '0', '0', '0', '0', '0', '1', '0', ' ', '#', 'L'], [' '], ['0', '0', '0', '0', '1', '0', '0', '0']] =
      .ok [130, 8] ∧ parseLines [['1', '2']] = .error .nonBinaryToken := by
  constructor <;> rfl

/-! ### Witnesses: each statement's hypotheses can be met -/

theorem witness_LaunchPlacesImage :
    (List.replicate 256 255).length ≤ 256 ∧ ∀ n ∈ List.replicate 256 255, n ≤ 255 :=
  ⟨List.length_replicate.le, fun _ h => (List.eq_of_mem_replicate h).le⟩

theorem witness_LaunchRefusesMalformedImages :
    256 < (List.replicate 257 0).length ∧ ∃ n ∈ [256], 255 < n := 
  ⟨by rw [List.length_replicate]; decide, 256, by decide, by decide⟩

theorem witness_LoaderReadsBinaryLines :
    ∀ l ∈ [((130 : Byte), ['L', 'D', 'I']), (255, [])], '\n' ∉ l.2 := by decide

theorem witness_DecodeFollowsOpcodeTable :
    (0x83 : Byte) ∉ [0b00000001, 0b10000010, 0b01000111, 0b10100010, 0b01000110, 0b01000101, 0b00010001, 0b01010000,
      0b01010100, 0b01010101, 0b01010110, (0b10100111 : Byte)] ∧
    (mk (regs07 0 0) 0 .notCompared [(0, 0x83)]).run = .running ∧
    (mk (regs07 0 0) 0 .notCompared [(0, 0x83)]).latches = some ⟨0x83, .byte 0, .byte 0⟩ := by decide

theorem witness_DecodeOfEncodeIsIdentity : (Instr.ldi (.byte 7) (.byte 255)).wellFormed = true := by decide

theorem witness_DecodedBytesBeginWithEncoding :
    decodeBytes [0xA2, 0, 7, 1] = .instr (.mul (.byte 0) (.byte 7)) ∧
    (Instr.mul (.byte 0) (.byte 7)).wellFormed = true := by decide

/-- Each of the three outcomes of a fetch occurs. -/
theorem witness_StepRunsDecodedInstruction :
    (mk (regs07 0 0) 256 .notCompared []).run = .running ∧
    decodeBytes (mk (regs07 0 0) 256 .notCompared []).bytesAtPc = .reject .noOpcode ∧
    decodeBytes (mk (regs07 0 0) 255 .notCompared [(255, 0x11)]).bytesAtPc = .instr .ret ∧
    decodeBytes (mk (regs07 0 0) 0 .notCompared []).bytesAtPc = .reject (.unknownOpcode 0) := by decide

theorem witness_NoStepInTerminalStates :
    State.reset.halt.run = .halted ∧ (State.reset.raise .outOfBounds none).run = .faulted := by decide

theorem witness_ExecAlwaysAnswersNext : State.reset.run = .running := by decide

theorem witness_SequentialAdvanceIsExact :
    ∃ t, AtInstr (mk (regs07 0 0) 254 .notCompared [(254, 0x47)]) (.prn (.byte 0)) ∧
      transfersControl (.prn (.byte 0)) = false ∧
      step (mk (regs07 0 0) 254 .notCompared [(254, 0x47)]) = .next t ∧ t.run ≠ .faulted :=
  ⟨_, by unfold AtInstr; decide, rfl, rfl, by decide⟩

/-- One witness for each of the five transfers. -/
theorem witness_ControlTransferTargetsMemory :
    (∃ t, exec (.call (.byte 0)) (mk (regs07 255 1) 253 .notCompared []) = .next t ∧ t.run = .running) ∧
    (∃ t, exec .ret (mk (regs07 0 254) 0 .notCompared [(254, 255)]) = .next t ∧ t.run = .running) ∧
    (∃ t, exec (.jmp (.byte 0)) (mk (regs07 255 0) 0 .notCompared []) = .next t ∧ t.run = .running) ∧
    (∃ t, exec (.jeq (.byte 0)) (mk (regs07 255 0) 0 .equal []) = .next t ∧ t.run = .running ∧ Flag.equal.value = 1) ∧
    (∃ t, exec (.jne (.byte 0)) (mk (regs07 255 0) 0 .less []) = .next t ∧ t.run = .running ∧ Flag.less.value ≠ 1) :=
  ⟨⟨_, rfl, rfl⟩, ⟨_, rfl, rfl⟩, ⟨_, rfl, rfl⟩, ⟨_, rfl, rfl, rfl⟩, ⟨_, rfl, rfl, by decide⟩⟩

/-- The bad operands of LDI, PRN, MUL, CMP, JMP, JEQ, JNE: the least bad byte, the greatest, and ABSENT. -/
theorem witness_bad_operands :
    (Operand.byte 8).isRegister = false ∧ (Operand.byte 255).isRegister = false ∧ Operand.absent.isRegister = false ∧
    (Operand.byte 7).isRegister = true := by decide

theorem witness_LdiLoadsImmediate : (Operand.byte 8).isRegister = false ∧ Operand.absent = .absent := by decide
theorem witness_PrnEmitsRegister : Operand.absent.isRegister = false := by decide
theorem witness_MulWrapsModulo256 : (Operand.byte 7).isRegister = true ∧ (Operand.byte 8).isRegister = false := by decide
theorem witness_CmpSetsFlag : (Operand.byte 255).isRegister = false ∧ Operand.absent.isRegister = false := by decide
theorem witness_JmpJumpsToRegister : (Operand.byte 8).isRegister = false := by decide

theorem witness_PushStoresBelowStackPointer : (mk (regs07 0 1) 0 .notCompared []).sp ≠ 0 := by decide

/-- POP at the greatest stack pointer that does not fault, for register 7 and for another. -/
theorem witness_PopLoadsAtStackPointer :
    (if (7 : RegIndex) = 7 then (mk (regs07 0 255) 0 .notCompared [(255, 254)]).memRead 255
      else (mk (regs07 0 255) 0 .notCompared [(255, 254)]).sp) ≠ 255 ∧
    (if (0 : RegIndex) = 7 then (mk (regs07 0 254) 0 .notCompared []).memRead 254
      else (mk (regs07 0 254) 0 .notCompared []).sp) ≠ 255 := by decide

theorem witness_CallPushesReturnAddress :
    (mk (regs07 0 1) 253 .notCompared []).sp ≠ 0 ∧ (mk (regs07 0 1) 253 .notCompared []).pc.toNat + 2 ≤ 255 := by decide

theorem witness_RetPopsProgramCounter : (mk (regs07 0 254) 0 .notCompared []).sp ≠ 255 := by decide

/-- JEQ taken, not taken, and not taken at 254. -/
theorem witness_JeqJumpsWhenEqual :
    (mk (regs07 0 0) 254 .equal []).fl.value = 1 ∧ (mk (regs07 0 0) 254 .less []).fl.value ≠ 1 ∧
    (mk (regs07 0 0) 254 .notCompared []).fl.value ≠ 1 ∧ (mk (regs07 0 0) 254 .less []).pc = 254 ∧
    (mk (regs07 0 0) 254 .less []).run = .running := by decide

theorem witness_JneJumpsWhenNotEqual :
    (mk (regs07 0 0) 0 .notCompared []).fl.value ≠ 1 ∧ (mk (regs07 0 0) 0 .equal []).fl.value = 1 := by decide

/-- Equal registers and unequal ones. -/
theorem witness_CompareDecidesConditionalJumps :
    (mk (regs07 5 5) 0 .less []).readReg 0 = (mk (regs07 5 5) 0 .less []).readReg 7 ∧
    (mk (regs07 5 6) 0 .less []).readReg 0 ≠ (mk (regs07 5 6) 0 .less []).readReg 7 := by decide

theorem witness_PushThenPopRestores : (mk (regs07 9 1) 0 .notCompared []).sp ≠ 0 := by decide

/-- S4: CALL R0 at 3 to a RET at 6. -/
theorem witness_CallThenRetReturns :
    ∃ t, AtInstr (mk (regs07 6 244) 3 .notCompared [(3, 0x50), (6, 0x11)]) (.call (regOperand 0)) ∧
      step (mk (regs07 6 244) 3 .notCompared [(3, 0x50), (6, 0x11)]) = .next t ∧ t.run = .running ∧
      t.memRead (BitVec.ofNat 8 t.pc.toNat) = 0x11 :=
  ⟨_, by unfold AtInstr; decide, rfl, rfl, by decide⟩

/-- P6: three pushes and three pops, and the longest sequence a stack pointer of 1 allows. -/
theorem witness_StackIsLastInFirstOut :
    ([0, 1, 7] : List RegIndex).length ≤ State.reset.sp.toNat ∧
    ([3, 4, 5] : List RegIndex).length = ([0, 1, 7] : List RegIndex).length ∧ (7 : RegIndex) ∉ ([3, 4, 5] : List RegIndex) ∧
    (7 : RegIndex) ∉ ([0, 1, 2] : List RegIndex) ∧
    ([0] : List RegIndex).length ≤ (mk (regs07 9 1) 0 .notCompared []).sp.toNat := by decide

/-- P5: PUSH R0 at 6 with the stack pointer at 9. -/
theorem witness_StoredByteIsFetchedNext :
    AtInstr (mk (regs07 1 9) 6 .notCompared [(6, 0x45), (8, 0xFF)]) (.push (regOperand 0)) ∧
    (mk (regs07 1 9) 6 .notCompared [(6, 0x45), (8, 0xFF)]).sp ≠ 0 ∧
    ((mk (regs07 1 9) 6 .notCompared [(6, 0x45), (8, 0xFF)]).sp - 1).toNat =
      (mk (regs07 1 9) 6 .notCompared [(6, 0x45), (8, 0xFF)]).pc.toNat + 2 := by unfold AtInstr; decide

theorem witness_BadOperandRaisesOutOfBounds :
    (Instr.call (.byte 8)).wellFormed = false ∧
    decode ⟨0x47, .byte 0, .byte 1⟩ = .instr (.prn (.byte 0)) ∧
    (1 ≤ (Instr.prn (.byte 0)).operands.length → (⟨0x47, .byte 0, .absent⟩ : Latches).opA = .byte 0) ∧
    ¬ 2 ≤ (Instr.prn (.byte 0)).operands.length := by decide

/-- An illegal byte in the last cell, a step that records UnknownOpcode, and the longest image after a first byte 0xFF. -/
theorem witness_UnknownOpcodeFaults :
    (mk (regs07 0 0) 255 .notCompared [(255, 0xFF)]).run = .running ∧
    (mk (regs07 0 0) 255 .notCompared [(255, 0xFF)]).pc.toNat ≤ 255 ∧
    (mk (regs07 0 0) 255 .notCompared [(255, 0xFF)]).memRead 255 ∉
      [0x01, 0x82, 0x47, 0xA2, 0x46, 0x45, 0x11, 0x50, 0x54, 0x55, 0x56, (0xA7 : Byte)] ∧
    State.reset.run = .running ∧ State.reset.fault = none ∧
    nextState (step State.reset) = some (State.reset.raise .unknownOpcode (some 0)) ∧
    (State.reset.raise .unknownOpcode (some 0)).fault = some ⟨.unknownOpcode, 0, some 0⟩ ∧
    (List.replicate 255 255).length ≤ 255 ∧ (∀ n ∈ List.replicate 255 255, n ≤ 255) :=
  ⟨by decide, by decide, by decide, by decide, by decide, by decide, by decide,
    List.length_replicate.le, fun _ h => (List.eq_of_mem_replicate h).le⟩

theorem witness_OutOfBoundsCausesAreComplete :
    ∃ t, (mk (regs07 0 0) 256 .notCompared []).run = .running ∧ (mk (regs07 0 0) 256 .notCompared []).fault = none ∧
      step (mk (regs07 0 0) 256 .notCompared []) = .next t := ⟨_, rfl, rfl, rfl⟩

/-- Each end of the stack pointer's range, and the return address. -/
theorem witness_StackPointerNeverWraps :
    (mk (regs07 0 0) 0 .notCompared []).sp = 0 ∧ 254 ≤ (mk (regs07 0 9) 254 .notCompared []).pc.toNat ∧
    (if (0 : RegIndex) = 7 then (mk (regs07 0 255) 0 .notCompared []).memRead 255
      else (mk (regs07 0 255) 0 .notCompared []).sp) = 255 ∧
    (if (7 : RegIndex) = 7 then (mk (regs07 0 9) 0 .notCompared [(9, 255)]).memRead 9
      else (mk (regs07 0 9) 0 .notCompared [(9, 255)]).sp) = 255 ∧
    (mk (regs07 0 255) 0 .notCompared []).sp = 255 := by decide

theorem witness_UnsupportedAluNeverRaised :
    ∃ t r, AluOp.add ≠ .other ∧ State.reset.fault = none ∧ Reaches State.reset t ∧ t.fault = some r :=
  ⟨State.reset.raise .unknownOpcode (some 0), ⟨.unknownOpcode, 0, some 0⟩, by decide, rfl, .step .start rfl, rfl⟩

/-- A fetch fault and a fault inside memory. -/
theorem witness_FaultsArePrecise :
    (∃ t, step (mk (regs07 0 0) 256 .notCompared []) = .next t ∧ t.run = .faulted) ∧
    (∃ t, step State.reset = .next t ∧ t.run = .faulted ∧ State.reset.pc.toNat ≤ 255) :=
  ⟨⟨_, rfl, rfl⟩, ⟨_, rfl, rfl, by decide⟩⟩

/-- Both ends of a run. -/
theorem witness_RunEndsByHaltOrFault :
    AtInstr (mk (regs07 0 0) 0 .notCompared [(0, 1)]) .hlt ∧
    (∃ t, step (mk (regs07 0 0) 0 .notCompared [(0, 1)]) = .next t ∧ t.run ≠ .running) ∧
    (∃ t, step State.reset = .next t ∧ t.run ≠ .running) :=
  ⟨by unfold AtInstr; decide, ⟨_, rfl, by decide⟩, ⟨_, rfl, by decide⟩⟩

/-- A completed instruction that is no CMP, a faulted step, an instruction that reads no flag, and a jump whose two targets
differ. -/
theorem witness_FlagWrittenByCmpReadByConditionalJumps :
    (∃ t, exec .ret (mk (regs07 0 0) 0 .less []) = .next t) ∧ (∀ a b, Instr.ret ≠ .cmp a b) ∧
    (∃ t, step State.reset = .next t ∧ t.run = .faulted) ∧ (∀ a, Instr.ret ≠ .jeq a) ∧ (∀ a, Instr.ret ≠ .jne a) ∧
    zext9 ((mk (regs07 9 0) 0 .less []).readReg 0) ≠ (mk (regs07 9 0) 0 .less []).pc + 2 ∧
    (Flag.notCompared.value ≠ 1 ∧ Flag.less.value ≠ 1) :=
  ⟨⟨_, rfl⟩, fun _ _ h => Instr.noConfusion h, ⟨_, rfl, rfl⟩, fun _ h => Instr.noConfusion h,
    fun _ h => Instr.noConfusion h, by decide, by decide⟩

theorem witness_RegistersWrittenAsListed :
    ∃ t, exec (.pop (.byte 2)) (mk (regs07 0 9) 0 .less []) = .next t ∧ (0 : RegIndex) ∉ writtenRegs (.pop (.byte 2)) :=
  ⟨_, rfl, by decide⟩

/-- An instruction that stores, one that does not, and a RET with another memory that agrees at the stack pointer. -/
theorem witness_MemoryAccessedThroughStackPointerOnly :
    (∃ t, exec (.push (.byte 0)) (mk (regs07 5 9) 0 .less []) = .next t ∧ stores (.push (.byte 0)) = true) ∧
    (∃ t, exec .ret (mk (regs07 5 9) 0 .less [(9, 3)]) = .next t ∧ stores .ret = false ∧
      Memory.read [(1, 7), (9, 3)] 9 = (mk (regs07 5 9) 0 .less [(9, 3)]).memRead 9) :=
  ⟨⟨_, rfl, rfl⟩, ⟨_, rfl, rfl, by decide⟩⟩

theorem witness_OutputGrowsByPrnOnly :
    AtInstr (mk (regs07 72 0) 9 .notCompared [(9, 0x47)]) (.prn (regOperand 0)) ∧
    ∃ t, step (mk (regs07 72 0) 9 .notCompared [(9, 0x47)]) = .next t := ⟨by unfold AtInstr; decide, _, rfl⟩

theorem witness_LaunchMeetsInvariant : ∃ s, launch 244 [0x82, 0, 8] = .ok s := ⟨_, rfl⟩

theorem witness_EveryStepKeepsInvariant : ∃ t, Inv State.reset ∧ step State.reset = .next t :=
  ⟨_, ⟨⟨List.Pairwise.nil, fun _ h => absurd h List.not_mem_nil⟩, by decide, by unfold FaultMatchesState; decide,
    fun _ h => by cases h⟩, rfl⟩

theorem witness_CanonicalMemoriesWithEqualCellsAreEqual :
    Memory.wf [(0, 1), (255, 2)] ∧ ¬ Memory.wf [(255, 2), (0, 1)] ∧ ¬ Memory.wf [(0, 0)] ∧ ¬ Memory.wf [(256, 1)] := by
  decide

end Sys2Proof.Tests
end

section
/-! The flags register FL (10_state.md R27 to R29): the rules about replacing FL in a state, the one commuting equation per
instruction that follows from them, and obligation O38. -/

namespace Sys2Proof.Machine

/-! ### Replacing FL -/

/-- The same state with another FL. -/
def State.withFl (s : State) (f : Flag) : State := { s with fl := f }

@[simp] theorem State.withFl_readReg (s : State) (f : Flag) (q : RegIndex) : (s.withFl f).readReg q = s.readReg q := rfl
@[simp] theorem State.withFl_sp (s : State) (f : Flag) : (s.withFl f).sp = s.sp := rfl
@[simp] theorem State.withFl_memRead (s : State) (f : Flag) (a : Byte) : (s.withFl f).memRead a = s.memRead a := rfl
@[simp] theorem State.withFl_pc (s : State) (f : Flag) : (s.withFl f).pc = s.pc := rfl
@[simp] theorem State.withFl_fl (s : State) (f : Flag) : (s.withFl f).fl = f := rfl
@[simp] theorem State.withFl_self (s : State) : s.withFl s.fl = s := rfl
@[simp] theorem State.withFl_withFl (s : State) (f g : Flag) : (s.withFl f).withFl g = s.withFl g := rfl

@[simp] theorem State.writeReg_withFl (s : State) (f : Flag) (i : RegIndex) (v : Byte) :
    (s.withFl f).writeReg i v = (s.writeReg i v).withFl f := rfl
@[simp] theorem State.writeSp_withFl (s : State) (f : Flag) (v : Byte) :
    (s.withFl f).writeSp v = (s.writeSp v).withFl f := rfl
@[simp] theorem State.memWrite_withFl (s : State) (f : Flag) (a v : Byte) :
    (s.withFl f).memWrite a v = (s.memWrite a v).withFl f := rfl
@[simp] theorem State.advance_withFl (s : State) (f : Flag) (n : Nat) :
    (s.withFl f).advance n = (s.advance n).withFl f := rfl
@[simp] theorem State.jumpTo_withFl (s : State) (f : Flag) (v : Byte) :
    (s.withFl f).jumpTo v = (s.jumpTo v).withFl f := rfl
@[simp] theorem State.emit_withFl (s : State) (f : Flag) (v : Byte) :
    (s.withFl f).emit v = (s.emit v).withFl f := rfl
@[simp] theorem State.halt_withFl (s : State) (f : Flag) : (s.withFl f).halt = s.halt.withFl f := rfl

@[simp] theorem State.decSp_withFl (s : State) (f : Flag) : (s.withFl f).decSp = s.decSp.map (·.withFl f) := by
  obtain ⟨h, hd⟩ | ⟨h, hd⟩ := s.decSp_cases <;> rw [hd]
  · exact if_pos h
  · exact if_neg h

@[simp] theorem State.incSp_withFl (s : State) (f : Flag) : (s.withFl f).incSp = s.incSp.map (·.withFl f) := by
  obtain ⟨h, hi⟩ | ⟨h, hi⟩ := s.incSp_cases <;> rw [hi]
  · exact if_pos h
  · exact if_neg h

/-- What a meaning answers, with FL replaced in the next state. -/
def resultWithFl (f : Flag) : Result → Result
  | .next t => .next (t.withFl f)
  | .fault r => .fault r
  | .refused r => .refused r

@[simp] theorem resultWithFl_next (f : Flag) (t : State) : resultWithFl f (.next t) = .next (t.withFl f) := rfl

@[simp] theorem resultWithFl_resultWithFl (f g : Flag) (o : Result) :
    resultWithFl g (resultWithFl f o) = resultWithFl g o := by cases o <;> rfl

theorem resultWithFl_eq_next_iff (f : Flag) (o : Result) (t : State) :
    resultWithFl f o = .next t ↔ ∃ u, o = .next u ∧ u.withFl f = t := by cases o <;> simp [resultWithFl]

@[simp] theorem outOfBounds_withFl (ir : Byte) (s : State) (f : Flag) :
    outOfBounds ir (s.withFl f) = resultWithFl f (outOfBounds ir s) := rfl

/-! ### Instructions that do not read FL commute with replacing it -/

section

variable {s : State} {f : Flag}

theorem withReg_withFl {ir : Byte} {op : Operand} {k k' : RegIndex → Result}
    (h : ∀ r, k' r = resultWithFl f (k r)) :
    withReg ir op (s.withFl f) k' = resultWithFl f (withReg ir op s k) := by
  unfold withReg
  cases regIdx op with
  | none => exact outOfBounds_withFl ir s f
  | some r => exact h r

theorem withImm_withFl {ir : Byte} {op : Operand} {k k' : Byte → Result}
    (h : ∀ v, k' v = resultWithFl f (k v)) :
    withImm ir op (s.withFl f) k' = resultWithFl f (withImm ir op s k) := by
  unfold withImm
  cases need op with
  | none => exact outOfBounds_withFl ir s f
  | some v => exact h v

theorem execLdi_withFl (opA opB : Operand) : execLdi opA opB (s.withFl f) = resultWithFl f (execLdi opA opB s) :=
  withReg_withFl fun _ => withImm_withFl fun _ => by simp

theorem execPrn_withFl (opA : Operand) : execPrn opA (s.withFl f) = resultWithFl f (execPrn opA s) :=
  withReg_withFl fun _ => by simp

theorem execMul_withFl (opA opB : Operand) : execMul opA opB (s.withFl f) = resultWithFl f (execMul opA opB s) :=
  withReg_withFl fun _ => withReg_withFl fun _ => by simp [alu]

theorem execPush_withFl (opA : Operand) : execPush opA (s.withFl f) = resultWithFl f (execPush opA s) :=
  withReg_withFl fun _ => by
    rw [State.decSp_withFl]
    cases s.decSp with
    | none => simp
    | some t => simp

theorem execPop_withFl (opA : Operand) : execPop opA (s.withFl f) = resultWithFl f (execPop opA s) :=
  withReg_withFl fun r => by
    simp only [State.withFl_sp, State.withFl_memRead, State.writeReg_withFl, State.incSp_withFl]
    cases (s.writeReg r (s.memRead s.sp)).incSp with
    | none => simp
    | some t => simp

theorem execCall_withFl (opA : Operand) : execCall opA (s.withFl f) = resultWithFl f (execCall opA s) :=
  withReg_withFl fun _ => by
    rw [State.decSp_withFl]
    cases s.decSp with
    | none => simp
    | some t =>
      by_cases hp : s.pc.toNat + 2 > 255
      · simp [hp]
      · simp [hp]

theorem execRet_withFl : execRet (s.withFl f) = resultWithFl f (execRet s) := by
  simp only [execRet, State.withFl_sp, State.withFl_memRead, State.jumpTo_withFl, State.incSp_withFl]
  cases (s.jumpTo (s.memRead s.sp)).incSp with
  | none => simp
  | some t => simp

/-- A jump commutes with replacing FL once it is settled whether it is taken. -/
theorem jumpInstr_withFl (ir : Byte) (taken : Bool) (opA : Operand) :
    jumpInstr ir taken opA (s.withFl f) = resultWithFl f (jumpInstr ir taken opA s) :=
  withReg_withFl fun _ => by cases taken <;> simp

/-- CMP raises OutOfBounds in every state, or both its operands name registers (R112). -/
theorem exec_cmp_operand_cases (opA opB : Operand) :
    (∀ s, exec (.cmp opA opB) s = outOfBounds opCmp s) ∨ ∃ a b, opA = regOperand a ∧ opB = regOperand b := by
  cases ha : regIdx opA with
  | none => exact .inl fun s => withReg_of_not_register ((regIdx_eq_none_iff opA).mp ha) ..
  | some a =>
    obtain rfl := (regIdx_eq_some_iff opA a).mp ha
    cases hb : regIdx opB with
    | none =>
      exact .inl fun s => (withReg_regOperand ..).trans
        (withReg_of_not_register ((regIdx_eq_none_iff opB).mp hb) ..)
    | some b => exact .inr ⟨a, b, rfl, (regIdx_eq_some_iff opB b).mp hb⟩

/-- What CMP answers differs in FL alone where the states before it do: it compares the same registers. -/
theorem exec_cmp_withFl_same_but_fl (opA opB : Operand) (g : Flag) :
    resultWithFl g (exec (.cmp opA opB) (s.withFl f)) = resultWithFl g (exec (.cmp opA opB) s) := by
  obtain hf | ⟨a, b, rfl, rfl⟩ := exec_cmp_operand_cases opA opB
  · rw [hf, hf]
    rfl
  · rw [exec_cmp, exec_cmp]
    rfl

/-- An instruction that neither writes nor reads FL commutes with replacing it. -/
theorem exec_withFl {i : Instr} (hc : ∀ a b, i ≠ .cmp a b) (hq : ∀ a, i ≠ .jeq a) (hn : ∀ a, i ≠ .jne a) :
    exec i (s.withFl f) = resultWithFl f (exec i s) := by
  cases i with
  | hlt => rfl
  | ldi a b => exact execLdi_withFl a b
  | prn a => exact execPrn_withFl a
  | mul a b => exact execMul_withFl a b
  | pop a => exact execPop_withFl a
  | push a => exact execPush_withFl a
  | ret => exact execRet_withFl
  | call a => exact execCall_withFl a
  | jmp a => exact jumpInstr_withFl opJmp true a
  | jeq a => exact absurd rfl (hq a)
  | jne a => exact absurd rfl (hn a)
  | cmp a b => exact absurd rfl (hc a b)

/-- No instruction but JEQ and JNE lets FL reach anything but FL. -/
theorem exec_withFl_same_but_fl {i : Instr} (hq : ∀ a, i ≠ .jeq a) (hn : ∀ a, i ≠ .jne a) (g : Flag) :
    resultWithFl g (exec i (s.withFl f)) = resultWithFl g (exec i s) := by
  by_cases hc : ∃ a b, i = .cmp a b
  · obtain ⟨a, b, rfl⟩ := hc
    exact exec_cmp_withFl_same_but_fl a b g
  · rw [exec_withFl (fun a b h => hc ⟨a, b, h⟩) hq hn, resultWithFl_resultWithFl]

/-- Replacing FL by what it already is changes no answer of an instruction but CMP. -/
theorem exec_eq_resultWithFl_self {i : Instr} (hc : ∀ a b, i ≠ .cmp a b) : exec i s = resultWithFl s.fl (exec i s) := by
  by_cases hq : ∃ a, i = .jeq a
  · obtain ⟨a, rfl⟩ := hq
    exact jumpInstr_withFl (f := s.fl) opJeq s.flagIsEqual a
  by_cases hn : ∃ a, i = .jne a
  · obtain ⟨a, rfl⟩ := hn
    exact jumpInstr_withFl (f := s.fl) opJne (!s.flagIsEqual) a
  · exact exec_withFl (f := s.fl) hc (fun a h => hq ⟨a, h⟩) (fun a h => hn ⟨a, h⟩)

/-- Only CMP writes FL (R28). -/
theorem exec_fl_of_not_cmp {i : Instr} {t : State} (h : exec i s = .next t) (hc : ∀ a b, i ≠ .cmp a b) :
    t.fl = s.fl := by
  rw [exec_eq_resultWithFl_self hc, resultWithFl_eq_next_iff] at h
  obtain ⟨u, -, rfl⟩ := h
  rfl

/-! ### Faults leave FL -/

/-- A faulting instruction leaves FL, a CMP with a bad operand included (60_exceptions.md R174). -/
theorem exec_fl_of_faulted {i : Instr} {t : State} (hr : s.run = .running) (h : exec i s = .next t)
    (ht : t.run = .faulted) : t.fl = s.fl := by
  by_cases hc : ∃ a b, i = .cmp a b
  · obtain ⟨a, b, rfl⟩ := hc
    obtain hf | ⟨ra, rb, rfl, rfl⟩ := exec_cmp_operand_cases a b
    · cases (hf s).symm.trans h
      exact State.raise_fl ..
    · cases (exec_cmp s ra rb).symm.trans h
      cases hr.symm.trans ht
  · exact exec_fl_of_not_cmp h fun a b hi => hc ⟨a, b, hi⟩

/-- A step that faults, in the fetch, the decoder or the instruction, leaves FL. -/
theorem step_fl_of_faulted {t : State} (h : step s = .next t) (ht : t.run = .faulted) : t.fl = s.fl := by
  have hr := running_of_step h
  rw [step_running hr] at h
  obtain ⟨-, hf⟩ | ⟨l, -, -, hf⟩ | ⟨-, i, -, -, -, hf⟩ := fetchRunning_cases s <;> rw [hf] at h
  · cases h
    exact State.raise_fl ..
  · cases h
    exact State.raise_fl ..
  · exact exec_fl_of_faulted hr h ht

end

/-! ### What CMP puts into FL -/

theorem compareFlag_value_eq_one_iff (l r : Byte) : (compareFlag l r).value = 1 ↔ l = r := by
  obtain ⟨h, hf⟩ | ⟨h, hf⟩ | ⟨h, hf⟩ := compareFlag_cases l r <;> rw [hf]
  · simp [h, Flag.value]
  · exact iff_of_false (by decide) (by rintro rfl; omega)
  · exact iff_of_false (by decide) (by rintro rfl; omega)

theorem compareFlag_value_mem (l r : Byte) : (compareFlag l r).value ∈ [1, 2, 4] := by
  obtain ⟨-, hf⟩ | ⟨-, hf⟩ | ⟨-, hf⟩ := compareFlag_cases l r <;> rw [hf] <;> decide

/-! ### JEQ and JNE: the next pc by FL -/

theorem exec_jeq_pc (s : State) (r : RegIndex) :
    ∃ t, exec (.jeq (regOperand r)) s = .next t ∧
      t.pc = if s.fl.value = 1 then zext9 (s.readReg r) else s.pc + 2 := by
  refine ⟨_, exec_jeq s r, ?_⟩
  simp only [← flagIsEqual_iff]
  cases s.flagIsEqual with
  | false => rfl
  | true => rfl

theorem exec_jne_pc (s : State) (r : RegIndex) :
    ∃ t, exec (.jne (regOperand r)) s = .next t ∧
      t.pc = if s.fl.value = 1 then s.pc + 2 else zext9 (s.readReg r) := by
  refine ⟨_, exec_jne s r, ?_⟩
  simp only [← flagIsEqual_iff]
  cases s.flagIsEqual with
  | false => rfl
  | true => rfl

/-! ### The obligation -/

/-- Settles O38: every instruction but CMP, JEQ and JNE commutes with replacing FL, CMP does so outside FL, and a jump does
once it is settled whether it is taken. -/
theorem flagWrittenByCmpReadByConditionalJumps : Obligations.FlagWrittenByCmpReadByConditionalJumps := by
  unfold Obligations.FlagWrittenByCmpReadByConditionalJumps
  refine ⟨fun s a b => ?_, fun i s t h hc => exec_fl_of_not_cmp h hc, fun s t h ht => step_fl_of_faulted h ht,
    fun i s t f hq hn h => ?_, fun s r f hpc hf => ⟨?_, ?_⟩⟩
  · exact ⟨(s.withFl (compareFlag (s.readReg a) (s.readReg b))).advance 3, fun f => exec_cmp (s.withFl f) a b,
      compareFlag_value_eq_one_iff _ _, compareFlag_value_mem _ _⟩
  · refine (resultWithFl_eq_next_iff t.fl (exec i (s.withFl f)) t).mp ?_
    rw [exec_withFl_same_but_fl hq hn, h, resultWithFl_next, State.withFl_self]
  · obtain ⟨t, ht, htpc⟩ := exec_jeq_pc (s.withFl .equal) r
    obtain ⟨u, hu, hupc⟩ := exec_jeq_pc (s.withFl f) r
    refine ⟨t, u, ht, hu, ?_⟩
    rw [htpc, hupc, if_pos (by rfl), if_neg (by exact hf)]
    exact hpc
  · obtain ⟨t, ht, htpc⟩ := exec_jne_pc (s.withFl .equal) r
    obtain ⟨u, hu, hupc⟩ := exec_jne_pc (s.withFl f) r
    refine ⟨t, u, ht, hu, ?_⟩
    rw [htpc, hupc, if_pos (by rfl), if_neg (by exact hf)]
    exact hpc.symm

end Sys2Proof.Machine
end

section
/-! The opcode table (30_encoding.md R85, R86, R91): every instruction's opcode is one of twelve literals, a byte that is none
of them decodes to its rejection, a running core raises UnknownOpcode for a rejected byte, and obligation O5. -/

namespace Sys2Proof.Machine

/-- The opcode bytes of the table (R86), in its order. -/
def opcodeLiterals : List Byte :=
  [opHlt, opLdi, opPrn, opMul, opPop, opPush, opRet, opCall, opJmp, opJeq, opJne, opCmp]

theorem opcode_mem_opcodeLiterals (i : Instr) : i.opcode ∈ opcodeLiterals := by
  cases i <;> simp [Instr.opcode, opcodeLiterals]

theorem decode_of_not_mem_opcodeLiterals {l : Latches} (h : l.ir ∉ opcodeLiterals) :
    decode l = .reject (.unknownOpcode l.ir) := by
  obtain ⟨i, -, hop⟩ | hrej := decode_cases l
  · exact absurd (hop ▸ opcode_mem_opcodeLiterals i) h
  · exact hrej

theorem fetchRunning_of_reject {s : State} {l : Latches} {r : Reject} (hl : s.latches = some l)
    (hd : decode l = .reject r) : fetchRunning s = .raised (s.raise .unknownOpcode (some l.ir)) := by
  simp only [fetchRunning, hl, hd]

theorem step_of_reject {s : State} {l : Latches} {r : Reject} (hr : s.run = .running) (hl : s.latches = some l)
    (hd : decode l = .reject r) : step s = .next (s.raise .unknownOpcode (some l.ir)) := by
  rw [step_running hr, fetchRunning_of_reject hl hd]

/-- Settles O5: the twelve rows of the table are values of `decode`; a byte outside it is no instruction's opcode, so it is
rejected, and the step raises the fault. -/
theorem decodeFollowsOpcodeTable : Obligations.DecodeFollowsOpcodeTable := by
  unfold Obligations.DecodeFollowsOpcodeTable
  refine ⟨fun a b => ⟨rfl, rfl, rfl, rfl, rfl, rfl, rfl, rfl, rfl, rfl, rfl, rfl⟩, fun l h => ?_⟩
  have hrej : decode l = .reject (.unknownOpcode l.ir) := decode_of_not_mem_opcodeLiterals h
  exact ⟨hrej, fun s hr hl => step_of_reject hr hl hrej⟩

end Sys2Proof.Machine
end

section
/-! Operand use (40_fetch_decode_execute.md R112): which latches make an instruction what it is, every instruction that is not
well formed raises OutOfBounds before it has any effect, and obligation O31. -/

namespace Sys2Proof.Machine

/-- Behind an instruction's opcode byte, latches decode to that instruction exactly where they hold, in order, the operands
its format defines; the latches past those are free. -/
theorem decode_opcode_eq_instr_iff (i : Instr) (a b : Operand) :
    decode ⟨i.opcode, a, b⟩ = .instr i ↔ i.operands = [a, b].take i.operands.length := by
  cases i <;> simp [decode, Instr.opcode, Instr.operands, eq_comm]

/-- An instruction's opcode is the byte it was decoded from (R85). -/
theorem opcode_eq_of_decode {l : Latches} {i : Instr} (h : decode l = .instr i) : i.opcode = l.ir := by
  obtain ⟨j, hj, hop⟩ | hrej := decode_cases l
  · obtain rfl : j = i := Decoded.instr.inj (hj.symm.trans h)
    exact hop
  · cases hrej.symm.trans h

theorem decode_eq_instr_iff (l : Latches) (i : Instr) :
    decode l = .instr i ↔ i.opcode = l.ir ∧ i.operands = [l.opA, l.opB].take i.operands.length := by
  obtain ⟨ir, a, b⟩ := l
  constructor
  · intro h
    obtain rfl : i.opcode = ir := opcode_eq_of_decode h
    exact ⟨rfl, (decode_opcode_eq_instr_iff i a b).mp h⟩
  · rintro ⟨rfl, hops⟩
    exact (decode_opcode_eq_instr_iff i a b).mpr hops

/-- Latches that agree in the opcode byte and in the operands the instruction's format defines decode to the same
instruction. -/
theorem decode_congr {l l' : Latches} {i : Instr} (h : decode l = .instr i) (hir : l'.ir = l.ir)
    (hA : 1 ≤ i.operands.length → l'.opA = l.opA) (hB : 2 ≤ i.operands.length → l'.opB = l.opB) :
    decode l' = .instr i := by
  obtain ⟨hop, hops⟩ := (decode_eq_instr_iff l i).mp h
  have htake : [l'.opA, l'.opB].take i.operands.length = [l.opA, l.opB].take i.operands.length := by
    match i.operands.length, hA, hB with
    | 0, _, _ => rfl
    | 1, hA, _ => simp [hA]
    | n + 2, hA, hB => simp [hA, hB]
  exact (decode_eq_instr_iff l' i).mpr ⟨hop.trans hir.symm, hops.trans htake.symm⟩

theorem isRegister_byte_iff (b : Byte) : (Operand.byte b).isRegister = true ↔ b.toNat ≤ 7 := decide_eq_true_iff

/-- A meaning that raises OutOfBounds wherever its first operand is a register raises it for every first operand. -/
theorem withReg_eq_outOfBounds {ir : Byte} {op : Operand} {s : State} {k : RegIndex → Result}
    (h : op.isRegister = true → ∀ r, k r = outOfBounds ir s) : withReg ir op s k = outOfBounds ir s := by
  obtain ⟨-, hw⟩ | ⟨r, rfl, hw⟩ := withReg_cases ir op s k
  · exact hw
  · exact hw.trans (h (isRegister_regOperand r) r)

theorem aluInstr_of_not_registers {a b : Operand} (h : (a.isRegister && b.isRegister) = false) (ir : Byte) (op : AluOp)
    (s : State) : aluInstr ir op a b s = outOfBounds ir s :=
  withReg_eq_outOfBounds fun ha _ => withReg_of_not_register (by simpa [ha] using h) ..

theorem execLdi_of_not_wellFormed {a v : Operand} (h : (a.isRegister && v.isPresent) = false) (s : State) :
    execLdi a v s = outOfBounds opLdi s :=
  withReg_eq_outOfBounds fun ha _ => withImm_of_absent (by simpa [ha] using h) ..

/-- An instruction with an absent operand or a register operand above 7 raises OutOfBounds with its own opcode (R112). -/
theorem exec_of_not_wellFormed {i : Instr} (h : i.wellFormed = false) (s : State) :
    exec i s = outOfBounds i.opcode s := by
  cases i with
  | hlt | ret => cases h
  | ldi a v => exact execLdi_of_not_wellFormed h s
  | mul a b => exact aluInstr_of_not_registers h opMul .mul s
  | cmp a b => exact aluInstr_of_not_registers h opCmp .cmp s
  | prn a | pop a | push a | call a | jmp a | jeq a | jne a => exact withReg_of_not_register h ..

/-- Settles O31: each meaning checks its operands before anything else, and decoding depends on the opcode byte and the
operands the format defines alone. -/
theorem badOperandRaisesOutOfBounds : Obligations.BadOperandRaisesOutOfBounds := by
  unfold Obligations.BadOperandRaisesOutOfBounds
  exact ⟨fun _ s h => exec_of_not_wellFormed h s, fun _ _ => opcode_eq_of_decode,
    fun _ _ _ => decode_congr, isRegister_byte_iff, need_byte, regIdx_regOperand⟩

end Sys2Proof.Machine
end

section
/-! MUL (41_alu.md R130): what a completed MUL leaves in its register and outside it, and obligation O17. -/

namespace Sys2Proof.Machine

/-- A register write leaves every other register. -/
theorem State.writeReg_regsSameBut (s : State) (i : RegIndex) (v : Byte) : RegsSameBut [i] s (s.writeReg i v) :=
  fun _ hq => State.writeReg_readReg_of_ne s v (List.ne_of_not_mem_cons hq)

/-- The register MUL writes holds the product modulo 256; that the operands may be one register makes no difference, as
both values are read before the write. -/
theorem State.writeReg_mul_readReg_toNat (s : State) (a b : RegIndex) :
    ((s.writeReg a (s.readReg a * s.readReg b)).readReg a).toNat =
      (s.readReg a).toNat * (s.readReg b).toNat % 256 := by
  rw [State.writeReg_readReg_same, BitVec.toNat_mul]

/-- Settles O17: a completed MUL is one register write and the advance, and with a bad operand MUL is not well formed. -/
theorem mulWrapsModulo256 : Obligations.MulWrapsModulo256 := by
  unfold Obligations.MulWrapsModulo256
  constructor
  · intro s a b
    exact ⟨_, exec_mul s a b, State.writeReg_mul_readReg_toNat s a b, State.writeReg_regsSameBut s a _,
      rfl, rfl, fun _ => rfl, ⟨rfl, rfl⟩, rfl⟩
  · intro s a b h
    have hbad : (Instr.mul a b).wellFormed = false := Bool.and_eq_false_iff.mpr h
    exact exec_of_not_wellFormed hbad s

end Sys2Proof.Machine
end

section
/-! JMP, JEQ, JNE (43_control_flow.md R150 to R152): a jump that completes changes nothing but pc, a running core whose pc has
left memory raises OutOfBounds at its next fetch (40_fetch_decode_execute.md R110), and obligations O23, O24 and O25. -/

namespace Sys2Proof.Machine

/-- Everything but pc is as before, each piece of the state as a reader of it sees it. -/
def SameButPc (s t : State) : Prop :=
  RegsSameBut [] s t ∧ t.fl = s.fl ∧ MemSame s t ∧ StatusSame s t ∧ t.out = s.out

theorem State.jumpTo_sameButPc (s : State) (v : Byte) : SameButPc s (s.jumpTo v) :=
  ⟨fun _ _ => rfl, rfl, fun _ => rfl, ⟨rfl, rfl⟩, rfl⟩

theorem State.advance_sameButPc (s : State) (n : Nat) : SameButPc s (s.advance n) :=
  ⟨fun _ _ => rfl, rfl, fun _ => rfl, ⟨rfl, rfl⟩, rfl⟩

/-- The frame of the three jumps, taken or not. -/
theorem jumpInstr_sameButPc {ir : Byte} {taken : Bool} {r : RegIndex} {s t : State}
    (h : jumpInstr ir taken (regOperand r) s = .next t) : SameButPc s t := by
  rw [jumpInstr, withReg_regOperand] at h
  cases h
  cases taken with
  | false => exact s.advance_sameButPc 2
  | true => exact s.jumpTo_sameButPc (s.readReg r)

theorem State.latches_of_beyond_memory {s : State} (h : 255 < s.pc.toNat) : s.latches = none :=
  if_neg (Nat.not_le.mpr h)

/-- With pc outside memory the fetch itself faults, and no opcode is recorded (60_exceptions.md R172). -/
theorem step_of_beyond_memory {s : State} (hr : s.run = .running) (h : 255 < s.pc.toNat) :
    step s = .next (s.raise .outOfBounds none) := by
  rw [step_running hr, fetchRunning, State.latches_of_beyond_memory h]

/-- Settles O23: a completed JMP is `jumpTo` and nothing more, and with a bad operand JMP is not well formed. -/
theorem jmpJumpsToRegister : Obligations.JmpJumpsToRegister := by
  unfold Obligations.JmpJumpsToRegister
  constructor
  · intro s r
    exact ⟨_, exec_jmp s r, zext9_toNat _, s.jumpTo_sameButPc _⟩
  · intro s a h
    exact exec_of_not_wellFormed (i := .jmp a) h s

/-- Settles O24: the next pc depends on FL by `exec_jeq_pc`, the frame is that of every jump, and 254 + 2 lies outside
memory. -/
theorem jeqJumpsWhenEqual : Obligations.JeqJumpsWhenEqual := by
  unfold Obligations.JeqJumpsWhenEqual
  constructor
  · intro s r
    obtain ⟨t, ht, hpc⟩ := exec_jeq_pc s r
    obtain ⟨hregs, hfl, hmem, hstatus, hout⟩ := jumpInstr_sameButPc ht
    have htaken (h : s.fl.value = 1) : t.pc.toNat = (s.readReg r).toNat := by rw [hpc, if_pos h, zext9_toNat]
    have hskip (h : s.fl.value ≠ 1) : t.pc = s.pc + 2 := by rw [hpc, if_neg h]
    refine ⟨t, ht, htaken, hskip, hregs, hfl, hmem, hstatus, hout, fun h h254 hr => ?_⟩
    have hbeyond : 255 < t.pc.toNat := by
      rw [hskip h, h254]
      decide
    exact step_of_beyond_memory (hstatus.left.trans hr) hbeyond
  · intro s a h
    exact exec_of_not_wellFormed (i := .jeq a) h s

/-- Settles O25: the next pc depends on FL by `exec_jne_pc`, and the frame is that of every jump. -/
theorem jneJumpsWhenNotEqual : Obligations.JneJumpsWhenNotEqual := by
  unfold Obligations.JneJumpsWhenNotEqual
  constructor
  · intro s r
    obtain ⟨t, ht, hpc⟩ := exec_jne_pc s r
    have htaken (h : s.fl.value ≠ 1) : t.pc.toNat = (s.readReg r).toNat := by rw [hpc, if_neg h, zext9_toNat]
    have hskip (h : s.fl.value = 1) : t.pc = s.pc + 2 := by rw [hpc, if_pos h]
    exact ⟨t, ht, htaken, hskip, jumpInstr_sameButPc ht⟩
  · intro s a h
    exact exec_of_not_wellFormed (i := .jne a) h s

end Sys2Proof.Machine
end

section
/-! LDI and PRN (44_load_print.md R160, R161): what each leaves in the state and outside what it changes, and obligations O15
and O16. -/

namespace Sys2Proof.Machine

/-- Settles O15: a completed LDI is one register write and the advance, and with a bad operand LDI is not well formed. -/
theorem ldiLoadsImmediate : Obligations.LdiLoadsImmediate := by
  unfold Obligations.LdiLoadsImmediate
  constructor
  · intro s r v
    exact ⟨_, exec_ldi s r v, State.writeReg_readReg_same s r v, State.writeReg_regsSameBut s r v,
      rfl, rfl, fun _ => rfl, ⟨rfl, rfl⟩, rfl⟩
  · intro s a v h
    have hbad : (Instr.ldi a v).wellFormed = false :=
      Bool.and_eq_false_iff.mpr (h.imp_right (congrArg Operand.isPresent))
    exact exec_of_not_wellFormed hbad s

/-- Settles O16: a completed PRN is one emission and the advance, and with a bad operand PRN is not well formed. -/
theorem prnEmitsRegister : Obligations.PrnEmitsRegister := by
  unfold Obligations.PrnEmitsRegister
  constructor
  · intro s r
    exact ⟨_, exec_prn s r, State.emit_out s _, fun _ _ => rfl, rfl, rfl, fun _ => rfl, ⟨rfl, rfl⟩⟩
  · intro s a h
    exact exec_of_not_wellFormed (i := .prn a) h s

end Sys2Proof.Machine
end

section
/-! A step at an instruction (40_fetch_decode_execute.md R110): the bytes at pc are the latches as far as memory reaches, so a
running core executes the instruction those bytes decode to, and otherwise raises a fault. -/

namespace Sys2Proof.Machine

theorem State.latches_eq_none_iff (s : State) : s.latches = none ↔ 255 < s.pc.toNat := by
  simp [State.latches]

/-- Beyond memory there is no byte at pc. -/
theorem State.bytesAtPc_of_beyond_memory {s : State} (h : 255 < s.pc.toNat) : s.bytesAtPc = [] := by
  have hnone : ∀ k, ¬ s.pc.toNat + k ≤ 255 := fun k => by omega
  simp [State.bytesAtPc, hnone]

/-- The bytes at pc, where memory holds one, decode as the latches do: the list ends where a latch is ABSENT (R111). -/
theorem decodeBytes_bytesAtPc {s : State} {l : Latches} (h : s.latches = some l) :
    decodeBytes s.bytesAtPc = decode l := by
  have hpc : s.pc.toNat ≤ 255 := by
    by_contra hn
    cases (State.latches_of_beyond_memory (Nat.lt_of_not_le hn)).symm.trans h
  rw [State.latches, if_pos hpc] at h
  cases h
  have hrange : List.range 3 = [0, 1, 2] := rfl
  simp only [State.bytesAtPc, State.operandAt, hrange]
  by_cases h1 : s.pc.toNat + 1 ≤ 255
  · by_cases h2 : s.pc.toNat + 2 ≤ 255
    · simp [hpc, h1, h2, decodeBytes, operandOfBytes]
    · simp [hpc, h1, h2, decodeBytes, operandOfBytes]
  · have h2 : ¬ s.pc.toNat + 2 ≤ 255 := fun h2 => h1 (by omega)
    simp [hpc, h1, h2, decodeBytes, operandOfBytes]

theorem step_of_atInstr {s : State} {i : Instr} (h : AtInstr s i) : step s = exec i s := by
  obtain ⟨hr, hi⟩ := h
  rw [step_running hr]
  obtain ⟨hl, -⟩ | ⟨l, hl, hd, -⟩ | ⟨l, j, hl, hd, -, hf⟩ := fetchRunning_cases s
  · rw [State.bytesAtPc_of_beyond_memory (s.latches_eq_none_iff.mp hl)] at hi
    cases hi
  · cases (decodeBytes_bytesAtPc hl ▸ hi).symm.trans hd
  · cases (decodeBytes_bytesAtPc hl ▸ hi).symm.trans hd
    rw [hf]

end Sys2Proof.Machine
end

section
/-! The output sequence OUT (44_load_print.md R162): every instruction but PRN commutes with replacing OUT, PRN appends one
value to whatever OUT holds, a step does what its instruction does, and obligation O41. -/

namespace Sys2Proof.Machine

/-! ### Changing a piece of the state before and after a meaning -/

/-- What a meaning answers, with `g` applied to the next state. -/
def mapNext (g : State → State) : Result → Result
  | .next t => .next (g t)
  | .fault r => .fault r
  | .refused r => .refused r

section

variable {g : State → State} {s : State} {ir : Byte} {op : Operand}

theorem withReg_mapNext {k k' : RegIndex → Result} (hfault : outOfBounds ir (g s) = mapNext g (outOfBounds ir s))
    (h : ∀ r, k' r = mapNext g (k r)) : withReg ir op (g s) k' = mapNext g (withReg ir op s k) := by
  unfold withReg
  cases regIdx op with
  | none => exact hfault
  | some r => exact h r

theorem withImm_mapNext {k k' : Byte → Result} (hfault : outOfBounds ir (g s) = mapNext g (outOfBounds ir s))
    (h : ∀ v, k' v = mapNext g (k v)) : withImm ir op (g s) k' = mapNext g (withImm ir op s k) := by
  unfold withImm
  cases need op with
  | none => exact hfault
  | some v => exact h v

end

/-! ### Replacing OUT -/

/-- The same state with another output. -/
def State.withOut (o : List Byte) (s : State) : State := { s with out := o }

section

variable {s : State} {o : List Byte}

theorem State.decSp_withOut : (s.withOut o).decSp = s.decSp.map (State.withOut o) :=
  (apply_ite (Option.map (State.withOut o)) (s.sp = 0) none (some (s.writeSp (s.sp - 1)))).symm

theorem State.incSp_withOut : (s.withOut o).incSp = s.incSp.map (State.withOut o) :=
  (apply_ite (Option.map (State.withOut o)) (s.sp = 255) none (some (s.writeSp (s.sp + 1)))).symm

theorem withReg_withOut {ir : Byte} {op : Operand} {k k' : RegIndex → Result}
    (h : ∀ r, k' r = mapNext (State.withOut o) (k r)) :
    withReg ir op (s.withOut o) k' = mapNext (State.withOut o) (withReg ir op s k) :=
  withReg_mapNext rfl h

theorem execPush_withOut (opA : Operand) :
    execPush opA (s.withOut o) = mapNext (State.withOut o) (execPush opA s) :=
  withReg_withOut fun _ => by
    rw [State.decSp_withOut]
    cases s.decSp with
    | none => rfl
    | some t => rfl

theorem execPop_withOut (opA : Operand) : execPop opA (s.withOut o) = mapNext (State.withOut o) (execPop opA s) :=
  withReg_withOut fun r => by
    have hinc : ((s.withOut o).writeReg r ((s.withOut o).memRead (s.withOut o).sp)).incSp = _ :=
      State.incSp_withOut (s := s.writeReg r (s.memRead s.sp))
    rw [hinc]
    cases (s.writeReg r (s.memRead s.sp)).incSp with
    | none => rfl
    | some t => rfl

theorem execCall_withOut (opA : Operand) :
    execCall opA (s.withOut o) = mapNext (State.withOut o) (execCall opA s) :=
  withReg_withOut fun _ => by
    rw [State.decSp_withOut]
    cases s.decSp with
    | none => rfl
    | some t =>
      dsimp only [Option.map_some]
      rw [apply_ite (mapNext (State.withOut o))]
      rfl

theorem execRet_withOut : execRet (s.withOut o) = mapNext (State.withOut o) (execRet s) := by
  have hinc : ((s.withOut o).jumpTo ((s.withOut o).memRead (s.withOut o).sp)).incSp = _ :=
    State.incSp_withOut (s := s.jumpTo (s.memRead s.sp))
  unfold execRet
  rw [hinc]
  cases (s.jumpTo (s.memRead s.sp)).incSp with
  | none => rfl
  | some t => rfl

theorem jumpInstr_withOut (ir : Byte) (taken : Bool) (opA : Operand) :
    jumpInstr ir taken opA (s.withOut o) = mapNext (State.withOut o) (jumpInstr ir taken opA s) :=
  withReg_withOut fun _ => by
    cases taken with
    | false => rfl
    | true => rfl

/-- An instruction other than PRN neither reads nor writes OUT. -/
theorem exec_withOut {i : Instr} (h : ∀ a, i ≠ .prn a) :
    exec i (s.withOut o) = mapNext (State.withOut o) (exec i s) := by
  cases i with
  | hlt => rfl
  | ldi a b => exact withReg_withOut fun _ => withImm_mapNext rfl fun _ => rfl
  | prn a => exact absurd rfl (h a)
  | mul a b | cmp a b => exact withReg_withOut fun _ => withReg_withOut fun _ => rfl
  | pop a => exact execPop_withOut a
  | push a => exact execPush_withOut a
  | ret => exact execRet_withOut
  | call a => exact execCall_withOut a
  | jmp a => exact jumpInstr_withOut opJmp true a
  | jeq a => exact jumpInstr_withOut opJeq s.flagIsEqual a
  | jne a => exact jumpInstr_withOut opJne (!s.flagIsEqual) a

end

/-! ### What an instruction and a step append to OUT -/

/-- `f` leads from `s` to `t` and appends `d` to OUT, and from `s` with any other output it does the same. -/
def AppendsOut (f : State → Result) (d : List Byte) (s t : State) : Prop :=
  t.out = s.out ++ d ∧ ∀ o, f (s.withOut o) = .next (t.withOut (o ++ d))

section

variable {s t : State}

/-- A meaning that commutes with replacing OUT appends nothing. -/
theorem appendsOut_nil {f : State → Result} (hf : ∀ o, f (s.withOut o) = mapNext (State.withOut o) (f s))
    (h : f s = .next t) : AppendsOut f [] s t := by
  have hnext : ∀ o, f (s.withOut o) = .next (t.withOut o) := fun o => (hf o).trans (congrArg _ h)
  have hout : t.out = (t.withOut s.out).out :=
    congrArg State.out (Host.Outcome.next.inj (h.symm.trans (hnext s.out)))
  refine ⟨hout.trans (List.append_nil _).symm, fun o => ?_⟩
  rw [List.append_nil]
  exact hnext o

theorem exec_prn_appendsOut {r : RegIndex} (h : exec (.prn (regOperand r)) s = .next t) :
    AppendsOut (exec (.prn (regOperand r))) [s.readReg r] s t := by
  cases (exec_prn s r).symm.trans h
  exact ⟨rfl, fun o => exec_prn (s.withOut o) r⟩

/-- An instruction is a PRN at a register and appends that register's value, or it appends nothing. -/
theorem exec_appendsOut_cases {i : Instr} (h : exec i s = .next t) :
    AppendsOut (exec i) [] s t ∨ ∃ r, i = .prn (regOperand r) ∧ AppendsOut (exec i) [s.readReg r] s t := by
  by_cases hp : ∃ a, i = .prn a
  · obtain ⟨a, rfl⟩ := hp
    obtain ⟨ha, -⟩ | ⟨r, rfl, -⟩ := withReg_cases opPrn a s fun r => .next ((s.emit (s.readReg r)).advance 2)
    · have hf := exec_of_not_wellFormed (i := .prn a) ha
      exact .inl (appendsOut_nil (fun o => by rw [hf, hf]; rfl) h)
    · exact .inr ⟨r, rfl, exec_prn_appendsOut h⟩
  · exact .inl (appendsOut_nil (fun _ => exec_withOut fun a hi => hp ⟨a, hi⟩) h)

/-- A running core is at an instruction, or its step raises a fault at the fetch or the decoding whatever OUT holds. -/
theorem atInstr_or_step_raises (hr : s.run = .running) :
    (∃ i, AtInstr s i) ∨ ∃ k op, ∀ o, step (s.withOut o) = .next ((s.raise k op).withOut o) := by
  obtain ⟨hl, -⟩ | ⟨l, hl, hd, -⟩ | ⟨l, i, hl, hd, -⟩ := fetchRunning_cases s
  · have hpc := s.latches_eq_none_iff.mp hl
    exact .inr ⟨_, _, fun o => step_of_beyond_memory (s := s.withOut o) hr hpc⟩
  · exact .inr ⟨_, _, fun o => step_of_reject (s := s.withOut o) hr hl hd⟩
  · exact .inl ⟨i, hr, (decodeBytes_bytesAtPc hl).trans hd⟩

theorem AppendsOut.step_of_exec {i : Instr} {d : List Byte} (ha : AtInstr s i) (h : AppendsOut (exec i) d s t) :
    AppendsOut step d s t := by
  obtain ⟨hout, hexec⟩ := h
  have hat : ∀ o, AtInstr (s.withOut o) i := fun _ => ha
  exact ⟨hout, fun o => (step_of_atInstr (hat o)).trans (hexec o)⟩

/-- A step executes a PRN at a register and appends that register's value, or it appends nothing. -/
theorem step_appendsOut_cases (h : step s = .next t) :
    AppendsOut step [] s t ∨ ∃ r, AtInstr s (.prn (regOperand r)) ∧ AppendsOut step [s.readReg r] s t := by
  obtain ⟨i, ha⟩ | ⟨k, op, hf⟩ := atInstr_or_step_raises (running_of_step h)
  · obtain he | ⟨r, rfl, he⟩ := exec_appendsOut_cases ((step_of_atInstr ha).symm.trans h)
    · exact .inl (he.step_of_exec ha)
    · exact .inr ⟨r, ha, he.step_of_exec ha⟩
  · exact .inl (appendsOut_nil (fun o => (hf o).trans (congrArg (mapNext (State.withOut o)) (hf s.out)).symm) h)

end

/-! ### The obligation -/

/-- Settles O41: both claims about all steps are `step_appendsOut_cases`, and a step at a PRN executes it. -/
theorem outputGrowsByPrnOnly : Obligations.OutputGrowsByPrnOnly := by
  unfold Obligations.OutputGrowsByPrnOnly
  refine ⟨State.emit_out, fun s t h => ?_, fun s r ha => ?_, fun s t o h => ?_⟩
  · obtain ⟨hout, -⟩ | ⟨r, ha, hout, -⟩ := step_appendsOut_cases h
    · exact .inl (hout.trans (List.append_nil _))
    · exact .inr ⟨r, ha, hout⟩
  · exact ⟨_, (step_of_atInstr ha).trans (exec_prn s r), State.emit_out s _⟩
  · obtain ⟨hout, hstep⟩ | ⟨r, -, hout, hstep⟩ := step_appendsOut_cases h
    · exact ⟨[], hout, hstep o⟩
    · exact ⟨[s.readReg r], hout, hstep o⟩

end Sys2Proof.Machine
end

section
/-! Where a fault record comes from (60_exceptions.md R171, R172, R173): no instruction raises anything but OutOfBounds at its
own opcode, so a step leaves FAULT alone, raises OutOfBounds, or raises UnknownOpcode at the decoding; and obligations O32 and
O35. -/

namespace Sys2Proof.Machine

/-! ### The decoding: a byte is rejected exactly where it is none of the twelve -/

theorem exists_instr_of_mem_opcodeLiterals {l : Latches} (h : l.ir ∈ opcodeLiterals) : ∃ i, decode l = .instr i := by
  obtain ⟨ir, a, b⟩ := l
  simp only [opcodeLiterals, List.mem_cons, List.not_mem_nil, or_false] at h
  rcases h with rfl | rfl | rfl | rfl | rfl | rfl | rfl | rfl | rfl | rfl | rfl | rfl <;> exact ⟨_, rfl⟩

theorem not_mem_opcodeLiterals_of_reject {l : Latches} {r : Reject} (h : decode l = .reject r) :
    l.ir ∉ opcodeLiterals := by
  intro hmem
  obtain ⟨i, hi⟩ := exists_instr_of_mem_opcodeLiterals hmem
  cases h.symm.trans hi

theorem State.latches_eq_some_iff (s : State) (l : Latches) :
    s.latches = some l ↔ s.pc.toNat ≤ 255 ∧
      ⟨s.memRead (BitVec.ofNat 8 s.pc.toNat), s.operandAt (s.pc.toNat + 1), s.operandAt (s.pc.toNat + 2)⟩ = l := by
  simp [State.latches]

/-- A running core at a byte that is none of the twelve raises UnknownOpcode, whatever the operands are (R171). -/
theorem step_of_not_mem_opcodeLiterals {s : State} (hr : s.run = .running) (hpc : s.pc.toNat ≤ 255)
    (h : s.memRead (BitVec.ofNat 8 s.pc.toNat) ∉ opcodeLiterals) :
    step s = .next (s.raise .unknownOpcode (some (s.memRead (BitVec.ofNat 8 s.pc.toNat)))) :=
  step_of_reject hr ((s.latches_eq_some_iff _).mpr ⟨hpc, rfl⟩) (decode_of_not_mem_opcodeLiterals h)

/-! ### What an instruction does to FAULT -/

/-- A meaning's answer from `s`: OutOfBounds with the opcode byte `ir`, or a next state with the FAULT of `s`. -/
def OutOfBoundsOrKeepsFault (ir : Byte) (s : State) (o : Result) : Prop :=
  o = outOfBounds ir s ∨ ∃ t, o = .next t ∧ t.fault = s.fault

namespace OutOfBoundsOrKeepsFault

variable {ir : Byte} {s : State}

theorem of_next {t : State} (h : t.fault = s.fault) : OutOfBoundsOrKeepsFault ir s (.next t) := .inr ⟨t, rfl, h⟩

theorem of_withReg {op : Operand} {k : RegIndex → Result} (h : ∀ r, OutOfBoundsOrKeepsFault ir s (k r)) :
    OutOfBoundsOrKeepsFault ir s (withReg ir op s k) := by
  obtain ⟨-, hw⟩ | ⟨r, -, hw⟩ := withReg_cases ir op s k
  · exact .inl hw
  · exact hw ▸ h r

theorem of_withImm {op : Operand} {k : Byte → Result} (h : ∀ v, OutOfBoundsOrKeepsFault ir s (k v)) :
    OutOfBoundsOrKeepsFault ir s (withImm ir op s k) := by
  obtain ⟨-, hw⟩ | ⟨v, -, hw⟩ := withImm_cases ir op s k
  · exact .inl hw
  · exact hw ▸ h v

theorem of_jumpInstr (taken : Bool) (opA : Operand) : OutOfBoundsOrKeepsFault ir s (jumpInstr ir taken opA s) :=
  of_withReg fun _ => of_next <| by
    cases taken with
    | false => rfl
    | true => rfl

theorem of_execPush (opA : Operand) : OutOfBoundsOrKeepsFault opPush s (execPush opA s) :=
  of_withReg fun _ => by
    obtain ⟨-, hd⟩ | ⟨-, hd⟩ := s.decSp_cases <;> rw [hd]
    · exact .inl rfl
    · exact of_next rfl

theorem of_execPop (opA : Operand) : OutOfBoundsOrKeepsFault opPop s (execPop opA s) :=
  of_withReg fun r => by
    obtain ⟨-, hi⟩ | ⟨-, hi⟩ := (s.writeReg r (s.memRead s.sp)).incSp_cases <;> rw [hi]
    · exact .inl rfl
    · exact of_next rfl

theorem of_execCall (opA : Operand) : OutOfBoundsOrKeepsFault opCall s (execCall opA s) :=
  of_withReg fun _ => by
    obtain ⟨-, hd⟩ | ⟨-, hd⟩ := s.decSp_cases <;> rw [hd]
    · exact .inl rfl
    · dsimp only
      split
      · exact .inl rfl
      · exact of_next rfl

theorem of_execRet : OutOfBoundsOrKeepsFault opRet s (execRet s) := by
  unfold execRet
  obtain ⟨-, hi⟩ | ⟨-, hi⟩ := (s.jumpTo (s.memRead s.sp)).incSp_cases <;> rw [hi]
  · exact .inl rfl
  · exact of_next rfl

/-- OutOfBounds is the one fault an instruction raises; MUL and CMP give the ALU codes it has a result for (R133). -/
theorem of_exec (i : Instr) : OutOfBoundsOrKeepsFault i.opcode s (exec i s) := by
  cases i with
  | hlt => exact of_next rfl
  | ldi a b => exact of_withReg fun _ => of_withImm fun _ => of_next rfl
  | prn a => exact of_withReg fun _ => of_next rfl
  | mul a b | cmp a b => exact of_withReg fun _ => of_withReg fun _ => of_next rfl
  | pop a => exact of_execPop a
  | push a => exact of_execPush a
  | ret => exact of_execRet
  | call a => exact of_execCall a
  | jmp a => exact of_jumpInstr true a
  | jeq a => exact of_jumpInstr s.flagIsEqual a
  | jne a => exact of_jumpInstr (!s.flagIsEqual) a

end OutOfBoundsOrKeepsFault

/-! ### What a step does to FAULT -/

/-- A step leaves FAULT, raises OutOfBounds, or raises UnknownOpcode for a rejected byte. -/
theorem step_fault_cases {s t : State} (h : step s = .next t) :
    t.fault = s.fault ∨ (∃ o, t = s.raise .outOfBounds o) ∨
    ∃ l, s.latches = some l ∧ l.ir ∉ opcodeLiterals ∧ t = s.raise .unknownOpcode (some l.ir) := by
  rw [step_running (running_of_step h)] at h
  obtain ⟨-, hf⟩ | ⟨l, hl, hd, hf⟩ | ⟨-, i, -, -, -, hf⟩ := fetchRunning_cases s <;> rw [hf] at h
  · cases h
    exact .inr (.inl ⟨none, rfl⟩)
  · cases h
    exact .inr (.inr ⟨l, hl, not_mem_opcodeLiterals_of_reject hd, rfl⟩)
  · obtain hout | ⟨u, hu, hfault⟩ := OutOfBoundsOrKeepsFault.of_exec (s := s) i
    · cases hout.symm.trans h
      exact .inr (.inl ⟨some i.opcode, rfl⟩)
    · cases hu.symm.trans h
      exact .inl hfault

/-- UnknownOpcode is recorded only at a byte of memory that is none of the twelve. -/
theorem not_mem_opcodeLiterals_of_records_unknownOpcode {s t : State} {r : FaultRecord} (hs : s.fault = none)
    (h : step s = .next t) (ht : t.fault = some r) (hk : r.kind = .unknownOpcode) :
    s.pc.toNat ≤ 255 ∧ s.memRead (BitVec.ofNat 8 s.pc.toNat) ∉ opcodeLiterals := by
  obtain hkeep | ⟨o, rfl⟩ | ⟨l, hl, hbyte, -⟩ := step_fault_cases h
  · cases (hkeep.trans hs).symm.trans ht
  · cases ht
    cases hk
  · obtain ⟨hpc, rfl⟩ := (s.latches_eq_some_iff l).mp hl
    exact ⟨hpc, hbyte⟩

/-! ### A launched image whose first byte is 0xFF -/

theorem launch_of_image {image : List Nat} (sp : Byte) (hlen : image.length ≤ 256) (hval : ∀ n ∈ image, n ≤ 255) :
    launch sp image = .ok ((State.resetWith sp).placeBytes 0 (image.map (BitVec.ofNat 8))) := by
  have hany : ¬ image.any (fun n => n > 255) = true := by simpa using hval
  rw [launch, if_neg (Nat.not_lt.mpr hlen), if_neg hany]

/-- The first step of every launched image that starts with 0xFF raises UnknownOpcode at address 0 (R171's example). -/
theorem launch_ff_step_raises (sp : Byte) {rest : List Nat} (hlen : rest.length ≤ 255) (hval : ∀ n ∈ rest, n ≤ 255) :
    ∃ s, launch sp (0xFF :: rest) = .ok s ∧ s.pc = 0 ∧ step s = .next (s.raise .unknownOpcode (some 0xFF)) := by
  have hlen256 : (0xFF :: rest).length ≤ 256 := Nat.succ_le_succ hlen
  have hlaunch := launch_of_image sp hlen256 (List.forall_mem_cons.mpr ⟨le_rfl, hval⟩)
  obtain ⟨-, hpc, -, hrun, -⟩ := (State.resetWith sp).placeBytes_frame 0 ((0xFF :: rest).map (BitVec.ofNat 8))
  have hmem := (State.resetWith sp).placeBytes_memRead 0 ((0xFF :: rest).map (BitVec.ofNat 8)) 0 (by simpa using hlen256)
  generalize (State.resetWith sp).placeBytes 0 ((0xFF :: rest).map (BitVec.ofNat 8)) = s at hlaunch hpc hrun hmem
  have hpc0 : s.pc = 0 := hpc
  have hbyte : s.memRead (BitVec.ofNat 8 s.pc.toNat) = 0xFF := by
    rw [hpc0]
    exact hmem
  have hstep := step_of_not_mem_opcodeLiterals (s := s) hrun (by rw [hpc0]; decide) (by rw [hbyte]; decide)
  exact ⟨s, hlaunch, hpc0, hbyte ▸ hstep⟩

/-- Settles O32: a step raises UnknownOpcode where the byte is none of the twelve by the decoder's rejection, and nowhere else
by `step_fault_cases`. -/
theorem unknownOpcodeFaults : Obligations.UnknownOpcodeFaults := by
  unfold Obligations.UnknownOpcodeFaults
  refine ⟨fun s => step_of_not_mem_opcodeLiterals, fun s t r _ => not_mem_opcodeLiterals_of_records_unknownOpcode,
    fun sp rest hlen hval => ?_⟩
  obtain ⟨s, hlaunch, hpc, hstep⟩ := launch_ff_step_raises sp hlen hval
  exact ⟨s, hlaunch, hpc ▸ hstep⟩

/-! ### UnsupportedALU -/

/-- No fault of kind UnsupportedALU is recorded. -/
def NoUnsupportedAlu (s : State) : Prop := ∀ r, s.fault = some r → r.kind ≠ .unsupportedALU

theorem noUnsupportedAlu_of_fault_none {s : State} (h : s.fault = none) : NoUnsupportedAlu s :=
  fun _ hr => nomatch h.symm.trans hr

theorem noUnsupportedAlu_raise {k : FaultKind} (hk : k ≠ .unsupportedALU) (s : State) (o : Option Byte) :
    NoUnsupportedAlu (s.raise k o) := by
  intro r hr
  cases hr
  exact hk

theorem step_noUnsupportedAlu {s t : State} (hs : NoUnsupportedAlu s) (h : step s = .next t) : NoUnsupportedAlu t := by
  obtain hkeep | ⟨o, rfl⟩ | ⟨l, -, -, rfl⟩ := step_fault_cases h
  · exact fun r hr => hs r (hkeep.symm.trans hr)
  · exact noUnsupportedAlu_raise (by decide) s o
  · exact noUnsupportedAlu_raise (by decide) s _

theorem Reaches.noUnsupportedAlu {s t : State} (hs : NoUnsupportedAlu s) (h : Reaches s t) : NoUnsupportedAlu t := by
  induction h with
  | start => exact hs
  | step _ hstep ih => exact step_noUnsupportedAlu ih hstep

theorem alu_ok_of_ne_other {op : AluOp} (h : op ≠ .other) (a b : RegIndex) (s : State) : ∃ t, alu op a b s = .ok t := by
  cases op with
  | add | mul | cmp => exact ⟨_, rfl⟩
  | other => exact absurd rfl h

theorem aluInstr_other (ir : Byte) (a b : RegIndex) (s : State) :
    aluInstr ir .other (regOperand a) (regOperand b) s = .next (s.raise .unsupportedALU (some ir)) := by
  simp only [aluInstr, withReg_regOperand, alu]

/-- Settles O35: the ALU's answers are its definition's, and `NoUnsupportedAlu` is kept by every step. -/
theorem unsupportedAluNeverRaised : Obligations.UnsupportedAluNeverRaised := by
  unfold Obligations.UnsupportedAluNeverRaised
  exact ⟨fun _ _ _ => rfl, fun _ a b s h => alu_ok_of_ne_other h a b s, aluInstr_other,
    fun _ _ hs ht => ht.noUnsupportedAlu (noUnsupportedAlu_of_fault_none hs)⟩

end Sys2Proof.Machine
end

section
/-! Encoding and decoding (30_encoding.md sections 1 and 2): where every operand is present, the encoding's operand bytes and
the operand latches filled from them determine each other; and obligations O7, O8 and O6. -/

namespace Sys2Proof.Machine

theorem isPresent_of_isRegister {op : Operand} (h : op.isRegister = true) : op.isPresent = true := by
  cases op with
  | absent => cases h
  | byte b => rfl

/-- A well-formed instruction has every operand its format defines (R87). -/
theorem operands_present_of_wellFormed {i : Instr} (h : i.wellFormed = true) :
    ∀ op ∈ i.operands, op.isPresent = true := by
  cases i with
  | hlt | ret => exact fun _ hop => absurd hop List.not_mem_nil
  | prn a | pop a | push a | call a | jmp a | jeq a | jne a =>
    exact List.forall_mem_singleton.mpr (isPresent_of_isRegister h)
  | ldi a v =>
    obtain ⟨ha, hv⟩ : a.isRegister = true ∧ v.isPresent = true := Bool.and_eq_true_iff.mp h
    exact List.forall_mem_cons.mpr ⟨isPresent_of_isRegister ha, List.forall_mem_singleton.mpr hv⟩
  | mul a b | cmp a b =>
    obtain ⟨ha, hb⟩ : a.isRegister = true ∧ b.isRegister = true := Bool.and_eq_true_iff.mp h
    exact List.forall_mem_cons.mpr
      ⟨isPresent_of_isRegister ha, List.forall_mem_singleton.mpr (isPresent_of_isRegister hb)⟩

theorem operands_length_le_two (i : Instr) : i.operands.length ≤ 2 := by
  cases i <;> simp [Instr.operands]

/-- Latches filled from the bytes of present operands hold those operands, whatever bytes follow. -/
theorem latches_of_operand_bytes {ops : List Operand} (hlen : ops.length ≤ 2) (h : ∀ op ∈ ops, op.isPresent = true)
    (rest : List Byte) :
    [operandOfBytes (ops.flatMap Operand.bytes ++ rest), operandOfBytes (ops.flatMap Operand.bytes ++ rest).tail].take
      ops.length = ops := by
  match ops, hlen, h with
  | [], _, _ => rfl
  | [.byte a], _, _ => rfl
  | [.byte a, .byte b], _, _ => rfl
  | .absent :: _, _, h => cases h .absent List.mem_cons_self
  | [_, .absent], _, h => cases h .absent (List.mem_cons_of_mem _ List.mem_cons_self)

/-- The other direction: where the latches in use are all present, the bytes they were filled from begin with theirs. -/
theorem operand_bytes_of_latches {n : Nat} (hn : n ≤ 2) {bs : List Byte}
    (h : ∀ op ∈ [operandOfBytes bs, operandOfBytes bs.tail].take n, op.isPresent = true) :
    bs.take n = ([operandOfBytes bs, operandOfBytes bs.tail].take n).flatMap Operand.bytes := by
  match n, hn, bs, h with
  | 0, _, _, _ => rfl
  | 1, _, _ :: _, _ => rfl
  | 2, _, _ :: _ :: _, _ => rfl
  | 1, _, [], h | 2, _, [], h => cases h .absent List.mem_cons_self
  | 2, _, [_], h => cases h .absent (List.mem_cons_of_mem _ List.mem_cons_self)

theorem flatMap_bytes_length {ops : List Operand} (h : ∀ op ∈ ops, op.isPresent = true) :
    (ops.flatMap Operand.bytes).length = ops.length := by
  induction ops with
  | nil => rfl
  | cons op ops ih =>
    obtain ⟨hop, hops⟩ := List.forall_mem_cons.mp h
    rw [List.flatMap_cons, List.length_append, Laws.Encoding.present_bytes hop, ih hops, List.length_cons, Nat.add_comm]

theorem encode_length {i : Instr} (h : i.wellFormed = true) : (encode i).length = i.length := by
  rw [encode, List.length_cons, flatMap_bytes_length (operands_present_of_wellFormed h), Instr.length, Nat.add_comm]

theorem decodeBytes_encode_append {i : Instr} (h : i.wellFormed = true) (rest : List Byte) :
    decodeBytes (encode i ++ rest) = .instr i :=
  (decode_eq_instr_iff _ i).mpr
    ⟨rfl, (latches_of_operand_bytes (operands_length_le_two i) (operands_present_of_wellFormed h) rest).symm⟩

/-- Bytes that decode to a well-formed instruction begin with its encoding. -/
theorem take_length_of_decodeBytes {bs : List Byte} {i : Instr} (h : decodeBytes bs = .instr i)
    (hw : i.wellFormed = true) : bs.take i.length = encode i := by
  cases bs with
  | nil => cases h
  | cons b bs =>
    obtain ⟨hop, hops⟩ := (decode_eq_instr_iff _ i).mp h
    have hpres := operands_present_of_wellFormed hw
    rw [hops] at hpres
    rw [Instr.length, Nat.add_comm, List.take_succ_cons, operand_bytes_of_latches (operands_length_le_two i) hpres, ← hops,
      encode, hop]

/-- Settles O7: the latches are filled from the operand bytes of the encoding, so they hold the instruction's operands. -/
theorem decodeOfEncodeIsIdentity : Obligations.DecodeOfEncodeIsIdentity := by
  unfold Obligations.DecodeOfEncodeIsIdentity
  exact fun _ rest h => decodeBytes_encode_append h rest

/-- Settles O8: the bytes are those the latches were filled from, and each operand in use contributes one. -/
theorem decodedBytesBeginWithEncoding : Obligations.DecodedBytesBeginWithEncoding := by
  unfold Obligations.DecodedBytesBeginWithEncoding
  exact fun _ _ h hw => ⟨take_length_of_decodeBytes h hw, encode_length hw⟩

/-- Settles O6: the table's words, cut into bytes, are the encodings O7 speaks of, and 0x83 and 0x00 are none of the twelve
literals. -/
theorem sampleWordsDecode : Obligations.SampleWordsDecode := by
  unfold Obligations.SampleWordsDecode
  decide

end Sys2Proof.Machine
end

section
/-! What an instruction can do, said once (42_stack.md R144, R145, 60_exceptions.md R172): it meets one of its fault
conditions and raises OutOfBounds, or it completes, with one equation per instruction for the next state. Later proofs split along
these two relations and do not unfold a meaning. -/

namespace Sys2Proof.Machine

/-! ### The two ends of an instruction -/

/-- The conditions under which instruction `i` raises OutOfBounds in `s`. -/
inductive ExecFaults (s : State) : Instr → Prop where
  | badOperand {i : Instr} (h : i.wellFormed = false) : ExecFaults s i
  | pushAtZero (a : Operand) (h : s.sp = 0) : ExecFaults s (.push a)
  | callAtZero (a : Operand) (h : s.sp = 0) : ExecFaults s (.call a)
  | callFromEnd (a : Operand) (h : 254 ≤ s.pc.toNat) : ExecFaults s (.call a)
  | popAtTop (r : RegIndex) (h : (if r = 7 then s.memRead s.sp else s.sp) = 255) : ExecFaults s (.pop (regOperand r))
  | retAtTop (h : s.sp = 255) : ExecFaults s .ret

/-- Instruction `i`, executed in `s`, completes with next state `t`. -/
inductive Completes (s : State) : Instr → State → Prop where
  | hlt : Completes s .hlt (s.advance 1).halt
  | ldi (r : RegIndex) (v : Byte) : Completes s (.ldi (regOperand r) (.byte v)) ((s.writeReg r v).advance 3)
  | prn (r : RegIndex) : Completes s (.prn (regOperand r)) ((s.emit (s.readReg r)).advance 2)
  | mul (a b : RegIndex) : Completes s (.mul (regOperand a) (regOperand b))
      ((s.writeReg a (s.readReg a * s.readReg b)).advance 3)
  | pop (r : RegIndex) (h : (if r = 7 then s.memRead s.sp else s.sp) ≠ 255) : Completes s (.pop (regOperand r))
      (((s.writeReg r (s.memRead s.sp)).writeSp ((if r = 7 then s.memRead s.sp else s.sp) + 1)).advance 2)
  | push (r : RegIndex) (h : s.sp ≠ 0) : Completes s (.push (regOperand r))
      (((s.writeSp (s.sp - 1)).memWrite (s.sp - 1) ((s.writeSp (s.sp - 1)).readReg r)).advance 2)
  | ret (h : s.sp ≠ 255) : Completes s .ret ((s.jumpTo (s.memRead s.sp)).writeSp (s.sp + 1))
  | call (r : RegIndex) (h : s.sp ≠ 0) (hp : s.pc.toNat + 2 ≤ 255) : Completes s (.call (regOperand r))
      (((s.writeSp (s.sp - 1)).memWrite (s.sp - 1) (BitVec.ofNat 8 (s.pc.toNat + 2))).jumpTo
        ((s.writeSp (s.sp - 1)).readReg r))
  | jmp (r : RegIndex) : Completes s (.jmp (regOperand r)) (s.jumpTo (s.readReg r))
  | jeqTaken (r : RegIndex) (h : s.fl.value = 1) : Completes s (.jeq (regOperand r)) (s.jumpTo (s.readReg r))
  | jeqSkipped (r : RegIndex) (h : s.fl.value ≠ 1) : Completes s (.jeq (regOperand r)) (s.advance 2)
  | jneTaken (r : RegIndex) (h : s.fl.value ≠ 1) : Completes s (.jne (regOperand r)) (s.jumpTo (s.readReg r))
  | jneSkipped (r : RegIndex) (h : s.fl.value = 1) : Completes s (.jne (regOperand r)) (s.advance 2)
  | cmp (a b : RegIndex) : Completes s (.cmp (regOperand a) (regOperand b))
      ((s.withFl (compareFlag (s.readReg a) (s.readReg b))).advance 3)

/-! ### Both are what `exec` does -/

theorem State.decSp_of_eq_zero {s : State} (h : s.sp = 0) : s.decSp = none := if_pos h

theorem State.incSp_of_eq_top {s : State} (h : s.sp = 255) : s.incSp = none := if_pos h

theorem exec_call_of_pc_at_end {s : State} (a : Operand) (h : 254 ≤ s.pc.toNat) :
    exec (.call a) s = outOfBounds opCall s :=
  withReg_eq_outOfBounds fun _ _ => by
    obtain ⟨-, hd⟩ | ⟨-, hd⟩ := s.decSp_cases <;> rw [hd]
    exact if_pos (by omega)

theorem exec_pop_of_top {s : State} (r : RegIndex) (h : (if r = 7 then s.memRead s.sp else s.sp) = 255) :
    exec (.pop (regOperand r)) s = outOfBounds opPop s := by
  have htop : (s.writeReg r (s.memRead s.sp)).sp = 255 := by rwa [State.writeReg_sp]
  simp only [exec, execPop, withReg_regOperand, State.incSp_of_eq_top htop]

theorem exec_ret_of_top {s : State} (h : s.sp = 255) : exec .ret s = outOfBounds opRet s := by
  simp only [exec, execRet]
  rw [State.incSp_of_eq_top (s := s.jumpTo (s.memRead s.sp)) h]

theorem exec_of_faults {s : State} {i : Instr} (h : ExecFaults s i) : exec i s = outOfBounds i.opcode s := by
  cases h with
  | badOperand h => exact exec_of_not_wellFormed h s
  | pushAtZero a h | callAtZero a h => exact withReg_eq_outOfBounds fun _ _ => by rw [State.decSp_of_eq_zero h]
  | callFromEnd a h => exact exec_call_of_pc_at_end a h
  | popAtTop r h => exact exec_pop_of_top r h
  | retAtTop h => exact exec_ret_of_top h

theorem flagIsEqual_eq_false_iff (s : State) : s.flagIsEqual = false ↔ s.fl.value ≠ 1 := by
  rw [← Bool.not_eq_true, flagIsEqual_iff]

theorem exec_of_completes {s t : State} {i : Instr} (h : Completes s i t) : exec i s = .next t := by
  cases h with
  | hlt => exact exec_hlt s
  | ldi r v => exact exec_ldi s r v
  | prn r => exact exec_prn s r
  | mul a b => exact exec_mul s a b
  | pop r h => exact exec_pop r h
  | push r h => exact exec_push r h
  | ret h => exact exec_ret h
  | call r h hp => exact exec_call r h hp
  | jmp r => exact exec_jmp s r
  | jeqTaken r h => rw [exec_jeq, if_pos ((flagIsEqual_iff s).mpr h)]
  | jeqSkipped r h => rw [exec_jeq, if_neg (mt (flagIsEqual_iff s).mp h)]
  | jneTaken r h => rw [exec_jne, if_pos (by rw [(flagIsEqual_eq_false_iff s).mpr h]; rfl)]
  | jneSkipped r h => rw [exec_jne, if_neg (by rw [(flagIsEqual_iff s).mpr h]; decide)]
  | cmp a b => exact exec_cmp s a b

/-! ### There is no third end -/

theorem isRegister_iff (op : Operand) : op.isRegister = true ↔ ∃ r, op = regOperand r := by
  constructor
  · intro h
    cases hr : regIdx op with
    | none => cases h.symm.trans ((regIdx_eq_none_iff op).mp hr)
    | some r => exact ⟨r, (regIdx_eq_some_iff op r).mp hr⟩
  · rintro ⟨r, rfl⟩
    exact isRegister_regOperand r

theorem isPresent_iff (op : Operand) : op.isPresent = true ↔ ∃ b, op = .byte b := by
  cases op <;> simp [Operand.isPresent]

theorem registers_of_and {a b : Operand} (h : (a.isRegister && b.isRegister) = true) :
    ∃ r q, a = regOperand r ∧ b = regOperand q := by
  obtain ⟨ha, hb⟩ := Bool.and_eq_true_iff.mp h
  obtain ⟨r, rfl⟩ := (isRegister_iff a).mp ha
  obtain ⟨q, rfl⟩ := (isRegister_iff b).mp hb
  exact ⟨r, q, rfl, rfl⟩

theorem push_faults_or_completes (s : State) (r : RegIndex) :
    ExecFaults s (.push (regOperand r)) ∨ ∃ t, Completes s (.push (regOperand r)) t := by
  by_cases h : s.sp = 0
  · exact .inl (.pushAtZero _ h)
  · exact .inr ⟨_, .push r h⟩

theorem pop_faults_or_completes (s : State) (r : RegIndex) :
    ExecFaults s (.pop (regOperand r)) ∨ ∃ t, Completes s (.pop (regOperand r)) t := by
  by_cases h : (if r = 7 then s.memRead s.sp else s.sp) = 255
  · exact .inl (.popAtTop r h)
  · exact .inr ⟨_, .pop r h⟩

theorem call_faults_or_completes (s : State) (r : RegIndex) :
    ExecFaults s (.call (regOperand r)) ∨ ∃ t, Completes s (.call (regOperand r)) t := by
  by_cases h : s.sp = 0
  · exact .inl (.callAtZero _ h)
  · by_cases hp : 254 ≤ s.pc.toNat
    · exact .inl (.callFromEnd _ hp)
    · exact .inr ⟨_, .call r h (by omega)⟩

theorem ret_faults_or_completes (s : State) : ExecFaults s .ret ∨ ∃ t, Completes s .ret t := by
  by_cases h : s.sp = 255
  · exact .inl (.retAtTop h)
  · exact .inr ⟨_, .ret h⟩

theorem faults_or_completes (s : State) (i : Instr) : ExecFaults s i ∨ ∃ t, Completes s i t := by
  cases hw : i.wellFormed with
  | false => exact .inl (.badOperand hw)
  | true =>
    cases i with
    | hlt => exact .inr ⟨_, .hlt⟩
    | ret => exact ret_faults_or_completes s
    | ldi a v =>
      obtain ⟨ha, hv⟩ : a.isRegister = true ∧ v.isPresent = true := Bool.and_eq_true_iff.mp hw
      obtain ⟨r, rfl⟩ := (isRegister_iff a).mp ha
      obtain ⟨b, rfl⟩ := (isPresent_iff v).mp hv
      exact .inr ⟨_, .ldi r b⟩
    | mul a b =>
      obtain ⟨r, q, rfl, rfl⟩ := registers_of_and hw
      exact .inr ⟨_, .mul r q⟩
    | cmp a b =>
      obtain ⟨r, q, rfl, rfl⟩ := registers_of_and hw
      exact .inr ⟨_, .cmp r q⟩
    | prn a =>
      obtain ⟨r, rfl⟩ := (isRegister_iff a).mp hw
      exact .inr ⟨_, .prn r⟩
    | pop a =>
      obtain ⟨r, rfl⟩ := (isRegister_iff a).mp hw
      exact pop_faults_or_completes s r
    | push a =>
      obtain ⟨r, rfl⟩ := (isRegister_iff a).mp hw
      exact push_faults_or_completes s r
    | call a =>
      obtain ⟨r, rfl⟩ := (isRegister_iff a).mp hw
      exact call_faults_or_completes s r
    | jmp a =>
      obtain ⟨r, rfl⟩ := (isRegister_iff a).mp hw
      exact .inr ⟨_, .jmp r⟩
    | jeq a =>
      obtain ⟨r, rfl⟩ := (isRegister_iff a).mp hw
      by_cases h : s.fl.value = 1
      · exact .inr ⟨_, .jeqTaken r h⟩
      · exact .inr ⟨_, .jeqSkipped r h⟩
    | jne a =>
      obtain ⟨r, rfl⟩ := (isRegister_iff a).mp hw
      by_cases h : s.fl.value = 1
      · exact .inr ⟨_, .jneSkipped r h⟩
      · exact .inr ⟨_, .jneTaken r h⟩

/-- What a next state of an instruction is. -/
theorem exec_eq_next_cases {s t : State} {i : Instr} (h : exec i s = .next t) :
    Completes s i t ∨ (ExecFaults s i ∧ t = s.raise .outOfBounds (some i.opcode)) := by
  obtain hf | ⟨u, hu⟩ := faults_or_completes s i
  · exact .inr ⟨hf, Host.Outcome.next.inj (h.symm.trans (exec_of_faults hf))⟩
  · cases (exec_of_completes hu).symm.trans h
    exact .inl hu

theorem exists_exec_eq_next (i : Instr) (s : State) : ∃ t, exec i s = .next t := by
  obtain hf | ⟨t, ht⟩ := faults_or_completes s i
  · exact ⟨_, exec_of_faults hf⟩
  · exact ⟨t, exec_of_completes ht⟩

end Sys2Proof.Machine
end

section
/-! What each instruction leaves where it completes: registers, memory, pc, STATE and FAULT, read off `Completes`; and the
obligations about one instruction or about every instruction: O13, O14, O18 to O22, O34 and O39. -/

namespace Sys2Proof.Machine

/-! ### Frames of the operations -/

theorem State.writeSp_regsSameBut (s : State) (v : Byte) : RegsSameBut [7] s (s.writeSp v) :=
  State.writeReg_regsSameBut s 7 v

theorem RegsSameBut.trans {ws vs : List RegIndex} {s t u : State} (h : RegsSameBut ws s t) (k : RegsSameBut vs t u) :
    RegsSameBut (ws ++ vs) s u := fun q hq =>
  (k q fun hv => hq (List.mem_append_right ws hv)).trans (h q fun hw => hq (List.mem_append_left vs hw))

theorem State.memWrite_memSameBut (s : State) (a v : Byte) : MemSameBut a s (s.memWrite a v) :=
  fun _ hb => State.memWrite_memRead_of_ne s v hb

theorem sub_one_toNat_add_one {v : Byte} (h : v ≠ 0) : (v - 1).toNat + 1 = v.toNat := by bv_omega

theorem add_one_toNat {v : Byte} (h : v ≠ 255) : (v + 1).toNat = v.toNat + 1 := by bv_omega

/-! ### Frames of a completed instruction -/

section

variable {s t : State} {i : Instr}

theorem Completes.wellFormed (h : Completes s i t) : i.wellFormed = true := by
  cases h <;> simp [Instr.wellFormed, Operand.isPresent]

theorem Completes.fault_eq (h : Completes s i t) : t.fault = s.fault := by cases h <;> rfl

theorem Completes.run_cases (h : Completes s i t) : (i = .hlt ∧ t.run = .halted) ∨ t.run = s.run := by
  cases h with
  | hlt => exact .inl ⟨rfl, rfl⟩
  | _ => exact .inr rfl

theorem Completes.run_ne_faulted (h : Completes s i t) (hr : s.run ≠ .faulted) : t.run ≠ .faulted := by
  obtain ⟨-, ht⟩ | ht := h.run_cases
  · rw [ht]
    decide
  · rwa [ht]

/-- The register table (10_state.md R23). -/
theorem Completes.regsSameBut (h : Completes s i t) : RegsSameBut (writtenRegs i) s t := by
  cases h with
  | hlt | prn r | jmp r | jeqTaken r | jeqSkipped r | jneTaken r | jneSkipped r | cmp a b => exact fun _ _ => rfl
  | ldi r v | mul r b =>
    simp only [writtenRegs, regIdx_regOperand]
    exact State.writeReg_regsSameBut s r _
  | pop r h =>
    simp only [writtenRegs, regIdx_regOperand]
    exact (State.writeReg_regsSameBut s r _).trans (State.writeSp_regsSameBut _ _)
  | push r h | ret h | call r h hp => exact State.writeSp_regsSameBut s _

theorem Completes.mem_eq_of_not_stores (h : Completes s i t) (hi : stores i = false) : t.mem = s.mem := by
  cases h with
  | push r h | call r h hp => cases hi
  | _ => rfl

/-- The stores are one write, to the cell below the stack pointer (20_memory.md R51). -/
theorem Completes.mem_of_stores (h : Completes s i t) (hi : stores i = true) :
    ∃ v, t.mem = (s.memWrite (s.sp - 1) v).mem := by
  cases h with
  | push r h | call r h hp => exact ⟨_, rfl⟩
  | _ => cases hi

theorem Completes.pc_of_sequential (h : Completes s i t) (hi : transfersControl i = false) :
    t.pc = s.pc + BitVec.ofNat 9 i.length := by
  cases h with
  | hlt | ldi r v | prn r | mul a b | pop r h | push r h | cmp a b => rfl
  | ret h | call r h hp | jmp r | jeqTaken r h | jeqSkipped r h | jneTaken r h | jneSkipped r h => cases hi

/-- A completed instruction goes past its own bytes or to an 8-bit address. -/
theorem Completes.pc_cases (h : Completes s i t) :
    t.pc = s.pc + BitVec.ofNat 9 i.length ∨ ∃ v, t.pc = zext9 v := by
  cases h with
  | hlt | ldi r v | prn r | mul a b | pop r h | push r h | cmp a b | jeqSkipped r h | jneSkipped r h => exact .inl rfl
  | ret h | call r h hp | jmp r | jeqTaken r h | jneTaken r h => exact .inr ⟨_, rfl⟩

/-- The five transfers, the conditional ones where taken, go to an 8-bit address. -/
theorem Completes.pc_of_transfer (h : Completes s i t)
    (hi : (∃ a, i = .call a) ∨ i = .ret ∨ (∃ a, i = .jmp a) ∨ (∃ a, i = .jeq a ∧ s.fl.value = 1) ∨
      (∃ a, i = .jne a ∧ s.fl.value ≠ 1)) : ∃ v, t.pc = zext9 v := by
  obtain ⟨a, rfl⟩ | rfl | ⟨a, rfl⟩ | ⟨a, rfl, hfl⟩ | ⟨a, rfl, hfl⟩ := hi
  · cases h with
    | call r h hp => exact ⟨_, rfl⟩
  · cases h with
    | ret h => exact ⟨_, rfl⟩
  · cases h with
    | jmp r => exact ⟨_, rfl⟩
  · cases h with
    | jeqTaken r h => exact ⟨_, rfl⟩
    | jeqSkipped r h => exact absurd hfl h
  · cases h with
    | jneTaken r h => exact ⟨_, rfl⟩
    | jneSkipped r h => exact absurd h hfl

end

/-! ### One instruction -/

/-- Settles O14: HLT is the advance by 1 and the halt. -/
theorem hltHalts : Obligations.HltHalts := by
  unfold Obligations.HltHalts
  exact fun s => ⟨_, exec_hlt s, rfl, rfl, fun _ _ => rfl, rfl, fun _ => rfl, rfl, rfl⟩

theorem compareFlag_value (l r : Byte) :
    (compareFlag l r).value = if l = r then 1 else if l.toNat > r.toNat then 2 else 4 := by
  unfold compareFlag
  split
  · rfl
  · split <;> rfl

/-- Settles O18: a completed CMP replaces FL and advances, and with a bad operand CMP is not well formed. -/
theorem cmpSetsFlag : Obligations.CmpSetsFlag := by
  unfold Obligations.CmpSetsFlag
  constructor
  · intro s a b
    exact ⟨_, exec_cmp s a b, compareFlag_value _ _, fun _ _ => rfl, rfl, fun _ => rfl, ⟨rfl, rfl⟩, rfl⟩
  · intro s a b h
    have hbad : (Instr.cmp a b).wellFormed = false := Bool.and_eq_false_iff.mpr h
    exact exec_of_not_wellFormed hbad s

/-- Settles O19: a completed PUSH is one decrement of the stack pointer, one store and the advance. -/
theorem pushStoresBelowStackPointer : Obligations.PushStoresBelowStackPointer := by
  unfold Obligations.PushStoresBelowStackPointer
  intro s r h
  refine ⟨_, exec_push r h, ?_, ?_, State.memWrite_memSameBut _ _ _, State.writeSp_regsSameBut s _, rfl, rfl,
    ⟨rfl, rfl⟩, rfl⟩
  · simpa using sub_one_toNat_add_one h
  · simp [State.writeSp_readReg]

/-- Settles O20: a completed POP is a register write, the increment of the stack pointer and the advance. -/
theorem popLoadsAtStackPointer : Obligations.PopLoadsAtStackPointer := by
  unfold Obligations.PopLoadsAtStackPointer
  intro s r h
  refine ⟨_, exec_pop r h, fun hr => ?_, ?_, fun _ => rfl,
    (State.writeReg_regsSameBut s r _).trans (State.writeSp_regsSameBut _ _), rfl, rfl, ⟨rfl, rfl⟩, rfl⟩
  · simp [State.writeSp_readReg, hr]
  · simpa using add_one_toNat h

/-- Settles O21: a completed CALL is one decrement of the stack pointer, one store and the jump. -/
theorem callPushesReturnAddress : Obligations.CallPushesReturnAddress := by
  unfold Obligations.CallPushesReturnAddress
  intro s r h hp
  refine ⟨_, exec_call r h hp, ?_, ?_, ?_, State.memWrite_memSameBut _ _ _, State.writeSp_regsSameBut s _, rfl,
    ⟨rfl, rfl⟩, rfl⟩
  · simpa using sub_one_toNat_add_one h
  · simp only [State.jumpTo_memRead, State.memWrite_memRead_same, BitVec.toNat_ofNat]
    omega
  · simp [State.writeSp_readReg]

/-- Settles O22: a completed RET is the jump and the increment of the stack pointer. -/
theorem retPopsProgramCounter : Obligations.RetPopsProgramCounter := by
  unfold Obligations.RetPopsProgramCounter
  intro s h
  refine ⟨_, exec_ret h, zext9_toNat _, ?_, fun _ => rfl, State.writeSp_regsSameBut _ _, rfl, ⟨rfl, rfl⟩, rfl⟩
  simpa using add_one_toNat h

/-- Settles O34: each clause is a fault condition of its instruction. -/
theorem stackPointerNeverWraps : Obligations.StackPointerNeverWraps := by
  unfold Obligations.StackPointerNeverWraps
  exact ⟨fun _ _ h => ⟨exec_of_faults (.pushAtZero _ h), exec_of_faults (.callAtZero _ h)⟩,
    fun _ _ h => exec_of_faults (.callFromEnd _ h), fun _ r h => exec_of_faults (.popAtTop r h),
    fun _ h => exec_of_faults (.retAtTop h)⟩

/-! ### Every instruction -/

/-- Settles O13: a transfer that leaves the core running completed, and its target is an 8-bit address. -/
theorem controlTransferTargetsMemory : Obligations.ControlTransferTargetsMemory := by
  unfold Obligations.ControlTransferTargetsMemory
  intro s t i h _ hrun hi
  obtain hc | ⟨-, rfl⟩ := exec_eq_next_cases h
  · obtain ⟨v, hv⟩ := hc.pc_of_transfer hi
    rw [hv, zext9_toNat]
    exact Nat.le_of_lt_succ v.isLt
  · cases hrun

/-- Settles O39: a completed instruction writes the registers of its row, and a fault writes none. -/
theorem registersWrittenAsListed : Obligations.RegistersWrittenAsListed := by
  unfold Obligations.RegistersWrittenAsListed
  intro i s t h
  obtain hc | ⟨-, rfl⟩ := exec_eq_next_cases h
  · exact hc.regsSameBut
  · exact fun _ _ => rfl

end Sys2Proof.Machine
end

section
/-! Memory as an instruction sees it (20_memory.md section 1): an instruction that reads no data does the same with any other
memory, and one that does with any memory that agrees at the stack pointer; and obligation O40. -/

namespace Sys2Proof.Machine

/-- The same state with another memory. -/
def State.withMem (m : Memory) (s : State) : State := { s with mem := m }

@[simp] theorem State.withMem_sp (m : Memory) (s : State) : (s.withMem m).sp = s.sp := rfl

/-- `m` holds, at the stack pointer, the byte an instruction that loads would find there. -/
def AgreesForLoads (i : Instr) (s : State) (m : Memory) : Prop :=
  (i = .ret ∨ ∃ a, i = .pop a) → m.read s.sp.toNat = s.memRead s.sp

section

variable {s t : State} {i : Instr} {m : Memory}

theorem ExecFaults.withMem (h : ExecFaults s i) (hm : AgreesForLoads i s m) : ExecFaults (s.withMem m) i := by
  cases h with
  | badOperand h => exact .badOperand h
  | pushAtZero a h => exact .pushAtZero a h
  | callAtZero a h => exact .callAtZero a h
  | callFromEnd a h => exact .callFromEnd a h
  | popAtTop r h =>
    have hload : (s.withMem m).memRead s.sp = s.memRead s.sp := hm (.inr ⟨_, rfl⟩)
    exact .popAtTop r (by rwa [State.withMem_sp, hload])
  | retAtTop h => exact .retAtTop h

theorem Completes.withMem (h : Completes s i t) (hm : AgreesForLoads i s m) :
    ∃ t', Completes (s.withMem m) i t' ∧ t'.withMem t.mem = t := by
  cases h with
  | hlt => exact ⟨_, .hlt, rfl⟩
  | ldi r v => exact ⟨_, .ldi r v, rfl⟩
  | prn r => exact ⟨_, .prn r, rfl⟩
  | mul a b => exact ⟨_, .mul a b, rfl⟩
  | pop r h =>
    have hload : (s.withMem m).memRead s.sp = s.memRead s.sp := hm (.inr ⟨_, rfl⟩)
    refine ⟨_, .pop r (by rwa [State.withMem_sp, hload]), ?_⟩
    rw [State.withMem_sp, hload]
    rfl
  | push r h => exact ⟨_, .push r h, rfl⟩
  | ret h =>
    have hload : (s.withMem m).memRead s.sp = s.memRead s.sp := hm (.inl rfl)
    refine ⟨_, .ret h, ?_⟩
    rw [State.withMem_sp, hload]
    rfl
  | call r h hp => exact ⟨_, .call r h hp, rfl⟩
  | jmp r => exact ⟨_, .jmp r, rfl⟩
  | jeqTaken r h => exact ⟨_, .jeqTaken r h, rfl⟩
  | jeqSkipped r h => exact ⟨_, .jeqSkipped r h, rfl⟩
  | jneTaken r h => exact ⟨_, .jneTaken r h, rfl⟩
  | jneSkipped r h => exact ⟨_, .jneSkipped r h, rfl⟩
  | cmp a b => exact ⟨_, .cmp a b, rfl⟩

theorem memSame_of_mem_eq (h : t.mem = s.mem) : MemSame s t := fun a => congrArg (Memory.read · a.toNat) h

theorem exec_memSame_of_not_stores (h : exec i s = .next t) (hi : stores i = false) : MemSame s t := by
  obtain hc | ⟨-, rfl⟩ := exec_eq_next_cases h
  · exact memSame_of_mem_eq (hc.mem_eq_of_not_stores hi)
  · exact fun _ => rfl

theorem exec_memSameBut_of_stores (h : exec i s = .next t) (hi : stores i = true) : MemSameBut (s.sp - 1) s t := by
  obtain hc | ⟨-, rfl⟩ := exec_eq_next_cases h
  · obtain ⟨v, hv⟩ := hc.mem_of_stores hi
    exact fun b hb => (memSame_of_mem_eq hv b).trans (State.memWrite_memRead_of_ne s v hb)
  · exact fun _ _ => rfl

/-- With another memory that agrees for loads, an instruction does the same to all else. -/
theorem exec_withMem (h : exec i s = .next t) (hm : AgreesForLoads i s m) :
    ∃ t', exec i (s.withMem m) = .next t' ∧ t'.withMem t.mem = t := by
  obtain hc | ⟨hf, rfl⟩ := exec_eq_next_cases h
  · obtain ⟨t', hc', ht'⟩ := hc.withMem hm
    exact ⟨t', exec_of_completes hc', ht'⟩
  · exact ⟨_, exec_of_faults (hf.withMem hm), rfl⟩

end

/-- Settles O40: stores are one write below the stack pointer, and both ends of an instruction survive another memory. -/
theorem memoryAccessedThroughStackPointerOnly : Obligations.MemoryAccessedThroughStackPointerOnly := by
  unfold Obligations.MemoryAccessedThroughStackPointerOnly
  exact ⟨fun _ _ _ h => ⟨exec_memSame_of_not_stores h, exec_memSameBut_of_stores h⟩,
    fun _ _ _ _ h hm => exec_withMem h hm⟩

end Sys2Proof.Machine
end

section
/-! What a step of a running core can do, said once (40_fetch_decode_execute.md R110, 60_exceptions.md R170 to R174): it
completes the instruction at pc, or it raises a fault; and the obligations about every step: O9 to O12, O33, O36, O37, and
the invariant, O43. -/

namespace Sys2Proof.Machine

/-! ### The bytes at pc -/

theorem State.bytesAtPc_head? {s : State} (h : s.pc.toNat ≤ 255) :
    s.bytesAtPc.head? = some (s.memRead (BitVec.ofNat 8 s.pc.toNat)) := by
  have hrange : List.range 3 = 0 :: [1, 2] := rfl
  rw [State.bytesAtPc, hrange, List.filter_cons_of_pos (by simpa using h)]
  rfl

/-- The bytes at pc end where memory does. -/
theorem State.pc_add_bytesAtPc_length_le {s : State} (h : s.pc.toNat ≤ 255) :
    s.pc.toNat + s.bytesAtPc.length ≤ 256 := by
  have hrange : List.range 3 = [0, 1, 2] := rfl
  simp only [State.bytesAtPc, hrange, List.length_map, ← List.countP_eq_length_filter, List.countP_cons, List.countP_nil,
    decide_eq_true_eq]
  split_ifs <;> omega

theorem head?_of_decodeBytes {bs : List Byte} {i : Instr} (h : decodeBytes bs = .instr i) :
    bs.head? = some i.opcode := by
  cases bs with
  | nil => cases h
  | cons b bs => exact congrArg some (opcode_eq_of_decode h).symm

section

variable {s t : State} {i : Instr}

theorem AtInstr.pc_le (h : AtInstr s i) : s.pc.toNat ≤ 255 := by
  obtain ⟨-, hi⟩ := h
  by_contra hn
  rw [State.bytesAtPc_of_beyond_memory (Nat.lt_of_not_le hn)] at hi
  cases hi

theorem AtInstr.head? (h : AtInstr s i) : s.bytesAtPc.head? = some i.opcode := head?_of_decodeBytes h.right

/-- A well-formed instruction has all its bytes in memory, so its successor is at most 256 (10_state.md R26). -/
theorem AtInstr.pc_add_length_le (h : AtInstr s i) (hw : i.wellFormed = true) : s.pc.toNat + i.length ≤ 256 := by
  have hlen : (s.bytesAtPc.take i.length).length = i.length := by
    rw [take_length_of_decodeBytes h.right hw, encode_length hw]
  have hle : i.length ≤ s.bytesAtPc.length := hlen ▸ List.length_take_le' ..
  have hend := State.pc_add_bytesAtPc_length_le h.pc_le
  omega

/-! ### The two ends of a step -/

/-- The faults a step of `s` raises, each with its kind and the opcode it records. -/
inductive StepRaises (s : State) : FaultKind → Option Byte → Prop where
  | fetch (h : 255 < s.pc.toNat) : StepRaises s .outOfBounds none
  | decode {l : Latches} (hl : s.latches = some l) (hd : decode l = .reject (.unknownOpcode l.ir)) :
      StepRaises s .unknownOpcode (some l.ir)
  | exec {i : Instr} (ha : AtInstr s i) (hf : ExecFaults s i) : StepRaises s .outOfBounds (some i.opcode)

theorem step_of_raises {k : FaultKind} {o : Option Byte} (hr : s.run = .running) (h : StepRaises s k o) :
    step s = .next (s.raise k o) := by
  cases h with
  | fetch h => exact step_of_beyond_memory hr h
  | decode hl hd => exact step_of_reject hr hl hd
  | exec ha hf => exact (step_of_atInstr ha).trans (exec_of_faults hf)

theorem step_of_completes (ha : AtInstr s i) (h : Completes s i t) : step s = .next t :=
  (step_of_atInstr ha).trans (exec_of_completes h)

theorem atInstr_or_fetch_raises (hr : s.run = .running) : (∃ i, AtInstr s i) ∨ ∃ k o, StepRaises s k o := by
  obtain ⟨hl, -⟩ | ⟨l, hl, hd, -⟩ | ⟨l, i, hl, hd, -⟩ := fetchRunning_cases s
  · exact .inr ⟨_, _, .fetch (s.latches_eq_none_iff.mp hl)⟩
  · exact .inr ⟨_, _, .decode hl hd⟩
  · exact .inl ⟨i, hr, (decodeBytes_bytesAtPc hl).trans hd⟩

theorem step_completes_or_raises (hr : s.run = .running) :
    (∃ i t, AtInstr s i ∧ Completes s i t) ∨ ∃ k o, StepRaises s k o := by
  obtain ⟨i, ha⟩ | hraise := atInstr_or_fetch_raises hr
  · obtain hf | ⟨t, ht⟩ := faults_or_completes s i
    · exact .inr ⟨_, _, .exec ha hf⟩
    · exact .inl ⟨i, t, ha, ht⟩
  · exact .inr hraise

/-- What a next state of a step is. -/
theorem step_eq_next_cases (h : step s = .next t) :
    (∃ i, AtInstr s i ∧ Completes s i t) ∨ ∃ k o, StepRaises s k o ∧ t = s.raise k o := by
  have hr := running_of_step h
  obtain ⟨i, u, ha, hu⟩ | ⟨k, o, hraise⟩ := step_completes_or_raises hr
  · cases (step_of_completes ha hu).symm.trans h
    exact .inl ⟨i, ha, hu⟩
  · exact .inr ⟨k, o, hraise, Host.Outcome.next.inj (h.symm.trans (step_of_raises hr hraise))⟩

/-- A step that did not fault completed the instruction it was at. -/
theorem completes_of_step_ne_faulted (ha : AtInstr s i) (h : step s = .next t) (ht : t.run ≠ .faulted) :
    Completes s i t := by
  obtain hc | ⟨-, rfl⟩ := exec_eq_next_cases ((step_of_atInstr ha).symm.trans h)
  · exact hc
  · exact absurd rfl ht

end

/-! ### What a raised fault records -/

section

variable {s : State} {k : FaultKind} {o : Option Byte}

theorem State.pc_le_of_latches {l : Latches} (h : s.latches = some l) : s.pc.toNat ≤ 255 :=
  ((s.latches_eq_some_iff l).mp h).left

/-- No opcode is recorded exactly where pc is outside memory. -/
theorem StepRaises.opcode_eq_none_iff (h : StepRaises s k o) : o = none ↔ 255 < s.pc.toNat := by
  cases h with
  | fetch h => exact iff_of_true rfl h
  | decode hl hd => exact iff_of_false (Option.some_ne_none _) (Nat.not_lt.mpr (State.pc_le_of_latches hl))
  | exec ha hf => exact iff_of_false (Option.some_ne_none _) (Nat.not_lt.mpr ha.pc_le)

/-- The opcode recorded is the byte at pc. -/
theorem StepRaises.opcode_eq_head? (h : StepRaises s k o) : o = s.bytesAtPc.head? := by
  cases h with
  | fetch h => rw [State.bytesAtPc_of_beyond_memory h, List.head?_nil]
  | decode hl hd =>
    obtain ⟨hpc, rfl⟩ := (s.latches_eq_some_iff _).mp hl
    exact (State.bytesAtPc_head? hpc).symm
  | exec ha hf => exact ha.head?.symm

theorem StepRaises.kind_of_none (h : StepRaises s k none) : k = .outOfBounds := by
  cases h
  rfl

theorem StepRaises.kind_ne_unsupportedALU (h : StepRaises s k o) : k ≠ .unsupportedALU := by
  cases h <;> decide

theorem faultRecordSound_raise (h : StepRaises s k o) : FaultRecordSound (s.raise k o) := by
  intro r hr
  cases hr
  refine ⟨rfl, h.opcode_eq_none_iff, h.kind_ne_unsupportedALU, ?_⟩
  rintro rfl
  exact h.kind_of_none

/-- CALL at pc 255 has no operand byte, so a well-formed one whose return address fits no cell stands at 254 (R145). -/
theorem AtInstr.pc_eq_of_call_at_end {a : Operand} (ha : AtInstr s (.call a)) (hpc : 254 ≤ s.pc.toNat)
    (hw : (Instr.call a).wellFormed = true) : s.pc.toNat = 254 := by
  have hle : s.pc.toNat + 2 ≤ 256 := ha.pc_add_length_le hw
  omega

theorem outOfBoundsCause_of_faults {i : Instr} (ha : AtInstr s i) (hf : ExecFaults s i) : OutOfBoundsCause s := by
  refine .inr ⟨i, ha.right, ?_⟩
  cases hf with
  | badOperand h => exact .inl h
  | pushAtZero a h => exact .inr (.inl ⟨⟨a, .inl rfl⟩, h⟩)
  | callAtZero a h => exact .inr (.inl ⟨⟨a, .inr rfl⟩, h⟩)
  | retAtTop h => exact .inr (.inr (.inl ⟨rfl, h⟩))
  | popAtTop r h => exact .inr (.inr (.inr (.inl ⟨r, rfl, h⟩)))
  | callFromEnd a h =>
    cases hw : (Instr.call a).wellFormed with
    | false => exact .inl rfl
    | true => exact .inr (.inr (.inr (.inr ⟨a, rfl, ha.pc_eq_of_call_at_end h hw⟩)))

/-- The causes of R172 are those a step raises OutOfBounds for. -/
theorem outOfBoundsCause_iff (hr : s.run = .running) : OutOfBoundsCause s ↔ ∃ o, StepRaises s .outOfBounds o := by
  constructor
  · rintro (hpc | ⟨i, hi, hcause⟩)
    · exact ⟨_, .fetch hpc⟩
    · refine ⟨_, .exec (i := i) ⟨hr, hi⟩ ?_⟩
      obtain hw | ⟨⟨a, rfl | rfl⟩, hsp⟩ | ⟨rfl, hsp⟩ | ⟨r, rfl, htop⟩ | ⟨a, rfl, hpc⟩ := hcause
      · exact .badOperand hw
      · exact .pushAtZero a hsp
      · exact .callAtZero a hsp
      · exact .retAtTop hsp
      · exact .popAtTop r htop
      · exact .callFromEnd a hpc.ge
  · rintro ⟨o, ho⟩
    cases ho with
    | fetch h => exact .inl h
    | exec ha hf => exact outOfBoundsCause_of_faults ha hf

end

/-! ### The obligations about a step -/

/-- Settles O9: the three cases of the fetch are those of decoding the bytes at pc. -/
theorem stepRunsDecodedInstruction : Obligations.StepRunsDecodedInstruction := by
  unfold Obligations.StepRunsDecodedInstruction
  intro s hr
  obtain ⟨hl, -⟩ | ⟨l, hl, hd, -⟩ | ⟨l, i, hl, hd, -⟩ := fetchRunning_cases s
  · have hpc := s.latches_eq_none_iff.mp hl
    rw [State.bytesAtPc_of_beyond_memory hpc]
    exact step_of_beyond_memory hr hpc
  · rw [decodeBytes_bytesAtPc hl, hd]
    exact step_of_reject hr hl hd
  · rw [decodeBytes_bytesAtPc hl, hd]
    exact step_of_atInstr ⟨hr, (decodeBytes_bytesAtPc hl).trans hd⟩

/-- Settles O10: the fetch ends in both terminal states. -/
theorem noStepInTerminalStates : Obligations.NoStepInTerminalStates := by
  unfold Obligations.NoStepInTerminalStates
  exact fun s => ⟨fun h => by simp only [step, fetch, h], fun h => by simp only [step, fetch, h]⟩

/-- Settles O11: both ends of an instruction, and both ends of a step, are next states. -/
theorem execAlwaysAnswersNext : Obligations.ExecAlwaysAnswersNext := by
  unfold Obligations.ExecAlwaysAnswersNext
  refine ⟨exists_exec_eq_next, fun s hr => ?_⟩
  obtain ⟨i, t, ha, ht⟩ | ⟨k, o, hraise⟩ := step_completes_or_raises hr
  · exact ⟨t, step_of_completes ha ht⟩
  · exact ⟨_, step_of_raises hr hraise⟩

/-- The advance past an instruction that lies within memory is exact in 9 bits. -/
theorem pc_add_length_toNat {p : PcWord} {n : Nat} (h : p.toNat + n ≤ 256) :
    (p + BitVec.ofNat 9 n).toNat = p.toNat + n := by
  rw [BitVec.toNat_add, BitVec.toNat_ofNat]
  omega

/-- Settles O12: the instruction completed, so it is well formed and all its bytes lie in memory. -/
theorem sequentialAdvanceIsExact : Obligations.SequentialAdvanceIsExact := by
  unfold Obligations.SequentialAdvanceIsExact
  intro s t i ha hi h ht
  have hc := completes_of_step_ne_faulted ha h ht
  have hend := ha.pc_add_length_le hc.wellFormed
  have hpc : t.pc.toNat = s.pc.toNat + i.length := by
    rw [hc.pc_of_sequential hi, pc_add_length_toNat hend]
  exact ⟨hpc, hpc.trans_le hend⟩

/-- Settles O33: a record of OutOfBounds is new, so the step raised it, and the causes are those it is raised for. -/
theorem outOfBoundsCausesAreComplete : Obligations.OutOfBoundsCausesAreComplete := by
  unfold Obligations.OutOfBoundsCausesAreComplete
  intro s t hr hs h
  constructor
  · rintro ⟨r, ht, hk⟩
    obtain ⟨i, -, hc⟩ | ⟨k, o, hraise, rfl⟩ := step_eq_next_cases h
    · cases (hc.fault_eq.trans hs).symm.trans ht
    · cases ht
      obtain rfl : k = .outOfBounds := hk
      exact (outOfBoundsCause_iff hr).mpr ⟨o, hraise⟩
  · intro hcause
    obtain ⟨o, hraise⟩ := (outOfBoundsCause_iff hr).mp hcause
    cases (step_of_raises hr hraise).symm.trans h
    exact ⟨_, rfl, rfl⟩

/-- Settles O36: a step that ends FAULTED raised a fault, and `raise` changes STATE and FAULT alone. -/
theorem faultsArePrecise : Obligations.FaultsArePrecise := by
  unfold Obligations.FaultsArePrecise
  intro s t hr h ht
  obtain ⟨i, -, hc⟩ | ⟨k, o, hraise, rfl⟩ := step_eq_next_cases h
  · exact absurd ht (hc.run_ne_faulted (by rw [hr]; decide))
  · exact ⟨k, o, rfl, hraise.opcode_eq_none_iff, fun _ => hraise.opcode_eq_head?⟩

theorem FaultKind.code_ne_zero (k : FaultKind) : k.code ≠ 0 := by cases k <;> decide

/-- Settles O37: among completed instructions HLT alone changes STATE, and a raised fault is recorded with its code. -/
theorem runEndsByHaltOrFault : Obligations.RunEndsByHaltOrFault := by
  unfold Obligations.RunEndsByHaltOrFault
  refine ⟨fun s t hr hs h ht => ?_, fun s ha => ?_, fun s hr => ?_⟩
  · obtain ⟨i, ha, hc⟩ | ⟨k, o, -, rfl⟩ := step_eq_next_cases h
    · obtain ⟨rfl, hhalted⟩ | hsame := hc.run_cases
      · exact .inl ⟨ha, hhalted, hc.fault_eq.trans hs, by rw [State.exitStatus, hhalted]⟩
      · exact absurd (hsame.trans hr) ht
    · exact .inr ⟨rfl, _, _, rfl, rfl, k.code_ne_zero, rfl⟩
  · exact ⟨_, (step_of_atInstr ha).trans (exec_hlt s), rfl⟩
  · rw [State.exitStatus, hr]

/-! ### The invariant -/

section

variable {s t : State} {i : Instr}

theorem Completes.mem_wf (h : Completes s i t) (hs : s.mem.wf) : t.mem.wf := by
  cases hi : stores i with
  | false => rwa [h.mem_eq_of_not_stores hi]
  | true =>
    obtain ⟨v, hv⟩ := h.mem_of_stores hi
    rw [hv]
    exact State.memWrite_wf _ v hs

theorem Completes.pc_le (h : Completes s i t) (ha : AtInstr s i) : t.pc.toNat ≤ 256 := by
  obtain hpc | ⟨v, hpc⟩ := h.pc_cases
  · have hend := ha.pc_add_length_le h.wellFormed
    rwa [hpc, pc_add_length_toNat hend]
  · rw [hpc, zext9_toNat]
    exact v.isLt.le

/-- A state without a record meets the two clauses about FAULT where it is not FAULTED. -/
theorem inv_of_fault_none (hmem : t.mem.wf) (hpc : t.pc.toNat ≤ 256) (hf : t.fault = none) (hrun : t.run ≠ .faulted) :
    Inv t where
  memCanonical := hmem
  pcAtMost256 := hpc
  faultMatches := iff_of_true hf hrun
  faultSound := fun _ hr => nomatch hf.symm.trans hr

theorem Completes.inv (h : Completes s i t) (ha : AtInstr s i) (hs : Inv s) : Inv t := by
  have hrun : s.run ≠ .faulted := by
    rw [ha.left]
    decide
  have hfault : t.fault = none := h.fault_eq.trans (hs.faultMatches.mpr hrun)
  exact inv_of_fault_none (h.mem_wf hs.memCanonical) (h.pc_le ha) hfault (h.run_ne_faulted hrun)

theorem StepRaises.inv {k : FaultKind} {o : Option Byte} (h : StepRaises s k o) (hs : Inv s) : Inv (s.raise k o) where
  memCanonical := hs.memCanonical
  pcAtMost256 := hs.pcAtMost256
  faultMatches := iff_of_false (Option.some_ne_none _) (fun h => h rfl)
  faultSound := faultRecordSound_raise h

end

/-- Settles O43: both ends of a step keep the invariant. -/
theorem everyStepKeepsInvariant : Obligations.EveryStepKeepsInvariant := by
  unfold Obligations.EveryStepKeepsInvariant
  intro s t hs h
  obtain ⟨i, ha, hc⟩ | ⟨k, o, hraise, rfl⟩ := step_eq_next_cases h
  · exact hc.inv ha hs
  · exact hraise.inv hs

end Sys2Proof.Machine
end

section
/-! Instructions one after another: a compare and the jumps after it (95_test_vectors.md S5), a store into code
(20_memory.md section 6) and the stack discipline (42_stack.md R146); and obligations O26 to O30. -/

namespace Sys2Proof.Machine

/-! ### A compare and a jump -/

/-- Settles O26: CMP leaves FL = 1 exactly for equal registers, and FL = 1 decides both jumps. -/
theorem compareDecidesConditionalJumps : Obligations.CompareDecidesConditionalJumps := by
  unfold Obligations.CompareDecidesConditionalJumps
  intro s a b r
  have ht := exec_cmp s a b
  have hfl := compareFlag_value_eq_one_iff (s.readReg a) (s.readReg b)
  obtain ⟨u, hu, hupc⟩ := exec_jeq_pc ((s.withFl (compareFlag (s.readReg a) (s.readReg b))).advance 3) r
  obtain ⟨w, hw, hwpc⟩ := exec_jne_pc ((s.withFl (compareFlag (s.readReg a) (s.readReg b))).advance 3) r
  have hskip : s.pc + 3 + 2 = s.pc + 5 := BitVec.add_assoc ..
  refine ⟨_, u, w, ht, hu, hw, fun heq => ?_, fun hne => ?_⟩
  · rw [hupc, hwpc, State.advance_fl, State.withFl_fl, if_pos (hfl.mpr heq), if_pos (hfl.mpr heq)]
    exact ⟨zext9_toNat _, hskip⟩
  · rw [hupc, hwpc, State.advance_fl, State.withFl_fl, if_neg (mt hfl.mp hne), if_neg (mt hfl.mp hne)]
    exact ⟨hskip, zext9_toNat _⟩

/-! ### The state after a push -/

/-- The value PUSH r stores: the register, read after the decrement of the stack pointer (R140). -/
def State.pushedValue (s : State) (r : RegIndex) : Byte := if r = 7 then s.sp - 1 else s.readReg r

/-- The state PUSH r leaves where it completes. -/
def State.pushed (s : State) (r : RegIndex) : State :=
  ((s.writeSp (s.sp - 1)).memWrite (s.sp - 1) (s.pushedValue r)).advance 2

theorem exec_push_eq_pushed {s : State} (r : RegIndex) (h : s.sp ≠ 0) :
    exec (.push (regOperand r)) s = .next (s.pushed r) := by
  rw [exec_push r h, State.writeSp_readReg]
  rfl

@[simp] theorem State.pushed_sp (s : State) (r : RegIndex) : (s.pushed r).sp = s.sp - 1 := by simp [State.pushed]

@[simp] theorem State.pushed_memRead (s : State) (r : RegIndex) :
    (s.pushed r).memRead (s.sp - 1) = s.pushedValue r := by simp [State.pushed]

theorem State.pushed_memSameBut (s : State) (r : RegIndex) : MemSameBut (s.sp - 1) s (s.pushed r) :=
  State.memWrite_memSameBut (s.writeSp (s.sp - 1)) _ _

theorem State.pushed_readReg_of_ne (s : State) (r : RegIndex) {q : RegIndex} (h : q ≠ 7) :
    (s.pushed r).readReg q = s.readReg q := State.writeReg_readReg_of_ne s (s.sp - 1) h

/-! ### One push and one pop, a call and its return, a store into code -/

theorem sub_one_ne_top {v : Byte} (h : v ≠ 0) : v - 1 ≠ 255 := by bv_omega

/-- After PUSH r, the pointer that POP r increments is the decremented one, also where r is the pointer itself. -/
theorem State.pushed_pop_pointer (s : State) (r : RegIndex) :
    (if r = 7 then (s.pushed r).memRead (s.pushed r).sp else (s.pushed r).sp) = s.sp - 1 := by
  rw [State.pushed_sp, State.pushed_memRead]
  split
  · exact if_pos ‹_›
  · rfl

/-- Settles O27: the pop finds the pushed value, and its increment undoes the decrement. -/
theorem pushThenPopRestores : Obligations.PushThenPopRestores := by
  unfold Obligations.PushThenPopRestores
  intro s r h
  have htop := s.pushed_pop_pointer r
  have hpop := exec_pop (s := s.pushed r) r (by rw [htop]; exact sub_one_ne_top h)
  rw [htop, State.pushed_sp, State.pushed_memRead, BitVec.sub_add_cancel] at hpop
  refine ⟨_, _, exec_push_eq_pushed r h, hpop, fun q _ => ?_, s.pushed_memSameBut r, s.pushed_memRead r, rfl⟩
  rw [State.advance_readReg, State.writeSp_readReg, State.writeReg_readReg]
  split_ifs with hq hr
  · rw [hq, State.readReg_seven]
  · rw [State.pushedValue, if_neg (hr ▸ hq), hr]
  · exact s.pushed_readReg_of_ne r hq

theorem atInstr_ret {s : State} (hr : s.run = .running) (hpc : s.pc.toNat ≤ 255)
    (h : s.memRead (BitVec.ofNat 8 s.pc.toNat) = 0x11) : AtInstr s .ret := by
  have hl := (s.latches_eq_some_iff _).mpr ⟨hpc, rfl⟩
  exact ⟨hr, (decodeBytes_bytesAtPc hl).trans ((decode_eq_instr_iff _ _).mpr ⟨h.symm, rfl⟩)⟩

theorem Completes.call_conditions {s t : State} {a : Operand} (h : Completes s (.call a) t) :
    s.sp ≠ 0 ∧ s.pc.toNat + 2 ≤ 255 := by
  cases h with
  | call r h hp => exact ⟨h, hp⟩

/-- Settles O28: the CALL completed, so the RET finds the return address where the CALL stored it, and its increment undoes
the decrement. -/
theorem callThenRetReturns : Obligations.CallThenRetReturns := by
  unfold Obligations.CallThenRetReturns
  intro s t r ha h ht hbyte
  have hc := completes_of_step_ne_faulted ha h (by rw [ht]; decide)
  obtain ⟨hsp0, hpc2⟩ := hc.call_conditions
  obtain ⟨t', ht', hsp, hcell, hpc, hmem, hregs, hfl, ⟨hrun, -⟩, hout⟩ := callPushesReturnAddress s r hsp0 hpc2
  obtain rfl : t' = t := Host.Outcome.next.inj (ht'.symm.trans (exec_of_completes hc))
  have hsp' : t'.sp = s.sp - 1 := by bv_omega
  have hat : AtInstr t' .ret := atInstr_ret ht (by rw [hpc]; exact Nat.le_of_lt_succ (BitVec.isLt _)) hbyte
  obtain ⟨u, hu, hupc, husp, humem, huregs, hufl, ⟨hurun, -⟩, huout⟩ :=
    retPopsProgramCounter t' (by rw [hsp']; exact sub_one_ne_top hsp0)
  refine ⟨u, (step_of_atInstr hat).trans hu, hurun.trans ht, ?_, fun q _ => ?_, hufl.trans hfl, huout.trans hout,
    fun b hb => (humem b).trans (hmem b hb), ?_⟩
  · rw [hupc, hsp', hcell]
  · by_cases hq : q = 7
    · subst hq
      exact BitVec.eq_of_toNat_eq (husp.trans hsp)
    · have hq7 : q ∉ ([7] : List RegIndex) := by simpa using hq
      exact (huregs q hq7).trans (hregs q hq7)
  · rw [humem, hcell]

/-- Settles O30: the next address is the cell the PUSH stored to. -/
theorem storedByteIsFetchedNext : Obligations.StoredByteIsFetchedNext := by
  unfold Obligations.StoredByteIsFetchedNext
  intro s r ha h hnext
  have hlt := (s.sp - 1).isLt
  have hpc : (s.pushed r).pc.toNat = (s.sp - 1).toNat := by
    rw [hnext]
    exact pc_add_length_toNat (p := s.pc) (n := 2) (by omega)
  refine ⟨_, (step_of_atInstr ha).trans (exec_push_eq_pushed r h), ha.left, ?_⟩
  have hle : (s.pushed r).pc.toNat ≤ 255 := by omega
  rw [State.bytesAtPc_head? hle, hpc, BitVec.ofNat_toNat, BitVec.setWidth_eq, State.pushed_memRead]
  rfl

/-! ### Many pushes, then many pops -/

/-- The bytes of `n` cells from address `a` up. -/
def Memory.cellsFrom (m : Memory) (a n : Nat) : List Byte := (List.range n).map fun k => m.read (a + k)

theorem Memory.cellsFrom_succ (m : Memory) (a n : Nat) :
    m.cellsFrom a (n + 1) = m.read a :: m.cellsFrom (a + 1) n := by
  simp [Memory.cellsFrom, List.range_succ_eq_map, Nat.add_assoc, Nat.add_comm 1]

theorem Memory.cellsFrom_succ_last (m : Memory) (a n : Nat) :
    m.cellsFrom a (n + 1) = m.cellsFrom a n ++ [m.read (a + n)] := by
  simp [Memory.cellsFrom, List.range_succ]

/-- `t` is `s` after pushes that found `vs` on top of the stack: they lie below the old pointer, the last pushed lowest, and
the cells from the old pointer up are as they were. -/
structure Pushed (s t : State) (vs : List Byte) : Prop where
  sp_add : t.sp.toNat + vs.length = s.sp.toNat
  cells : t.mem.cellsFrom t.sp.toNat vs.length = vs.reverse
  above : ∀ a, s.sp.toNat ≤ a → t.mem.read a = s.mem.read a

theorem Pushed.nil (s : State) : Pushed s s [] := ⟨rfl, rfl, fun _ _ => rfl⟩

theorem Pushed.cons {s t : State} {r : RegIndex} {vs : List Byte} (h : s.sp ≠ 0) (hp : Pushed (s.pushed r) t vs) :
    Pushed s t (s.pushedValue r :: vs) := by
  obtain ⟨hsp, hcells, habove⟩ := hp
  rw [State.pushed_sp] at hsp habove
  have hdec := sub_one_toNat_add_one h
  have hread (a : Nat) : (s.pushed r).mem.read a = if a = (s.sp - 1).toNat then s.pushedValue r else s.mem.read a :=
    Memory.read_write s.mem (s.sp - 1).toNat a (s.pushedValue r)
  refine ⟨?_, ?_, fun a ha => ?_⟩
  · rw [List.length_cons]
    omega
  · rw [List.length_cons, Memory.cellsFrom_succ_last, hcells, hsp, habove _ le_rfl, hread, if_pos rfl, List.reverse_cons]
  · rw [habove a (by omega), hread, if_neg (by omega)]

theorem pushAll_cons_of_next {r : RegIndex} {rs : List RegIndex} {s t : State}
    (h : exec (.push (regOperand r)) s = .next t) :
    pushAll (r :: rs) s = (pushAll rs t).map fun p => (t.memRead t.sp :: p.1, p.2) := by
  simp only [pushAll, h, nextState]

theorem popAll_cons_of_next {r : RegIndex} {rs : List RegIndex} {s t : State}
    (h : exec (.pop (regOperand r)) s = .next t) :
    popAll (r :: rs) s = (popAll rs t).map fun p => (t.readReg r :: p.1, p.2) := by
  simp only [popAll, h, nextState]

theorem pushAll_pushed (rs : List RegIndex) {s : State} (h : rs.length ≤ s.sp.toNat) :
    ∃ vs t, pushAll rs s = some (vs, t) ∧ vs.length = rs.length ∧ Pushed s t vs ∧ (7 ∉ rs → vs = rs.map s.readReg) := by
  induction rs generalizing s with
  | nil => exact ⟨[], s, rfl, rfl, .nil s, fun _ => rfl⟩
  | cons r rs ih =>
    rw [List.length_cons] at h
    have hsp : s.sp ≠ 0 := by
      intro h0
      rw [h0] at h
      cases h
    have hdec := sub_one_toNat_add_one hsp
    obtain ⟨vs, t, hpush, hlen, hp, hvs⟩ := ih (s := s.pushed r) (by rw [State.pushed_sp]; omega)
    refine ⟨s.pushedValue r :: vs, t, ?_, congrArg (· + 1) hlen, hp.cons hsp, fun h7 => ?_⟩
    · rw [pushAll_cons_of_next (exec_push_eq_pushed r hsp), hpush, State.pushed_sp, State.pushed_memRead]
      rfl
    · have hrs : 7 ∉ rs := List.not_mem_of_not_mem_cons h7
      rw [hvs hrs, List.map_cons, State.pushedValue, if_neg (List.ne_of_not_mem_cons h7).symm]
      congr 1
      exact List.map_congr_left fun q hq => s.pushed_readReg_of_ne r (ne_of_mem_of_not_mem hq hrs)

theorem exec_pop_of_ne_sp {s : State} {r : RegIndex} (hr : r ≠ 7) (h : s.sp ≠ 255) :
    ∃ t, exec (.pop (regOperand r)) s = .next t ∧ t.readReg r = s.memRead s.sp ∧ t.sp.toNat = s.sp.toNat + 1 ∧
      t.mem = s.mem := by
  refine ⟨_, exec_pop r (by rwa [if_neg hr]), ?_, ?_, rfl⟩
  · simp [State.writeSp_readReg, hr]
  · simpa [hr] using add_one_toNat h

/-- Pops into registers other than the stack pointer give the cells from the pointer up, in order. -/
theorem popAll_cellsFrom (ps : List RegIndex) {s : State} (h : s.sp.toNat + ps.length ≤ 255) (h7 : 7 ∉ ps) :
    ∃ u, popAll ps s = some (s.mem.cellsFrom s.sp.toNat ps.length, u) ∧ u.sp.toNat = s.sp.toNat + ps.length := by
  induction ps generalizing s with
  | nil => exact ⟨s, rfl, rfl⟩
  | cons r ps ih =>
    rw [List.length_cons] at h ⊢
    have hsp : s.sp ≠ 255 := by
      intro h255
      rw [h255] at h
      exact absurd h (by simp)
    obtain ⟨t, ht, hload, htsp, htmem⟩ := exec_pop_of_ne_sp (List.ne_of_not_mem_cons h7).symm hsp
    obtain ⟨u, hu, husp⟩ := ih (s := t) (by omega) (List.not_mem_of_not_mem_cons h7)
    refine ⟨u, ?_, by omega⟩
    rw [popAll_cons_of_next ht, hu, hload, htmem, htsp, Memory.cellsFrom_succ]
    rfl

/-- Settles O29: the pushed values lie in the cells below the old stack pointer, the last one lowest, and the pops read those
cells upwards. -/
theorem stackIsLastInFirstOut : Obligations.StackIsLastInFirstOut := by
  unfold Obligations.StackIsLastInFirstOut
  intro s rs ps hrs hps h7
  obtain ⟨vs, t, hpush, hlen, ⟨hsp, hcells, -⟩, hvs⟩ := pushAll_pushed rs hrs
  have hlt := s.sp.isLt
  obtain ⟨u, hpop, husp⟩ := popAll_cellsFrom ps (s := t) (by omega) h7
  rw [hps, ← hlen, hcells] at hpop
  exact ⟨vs, t, u, hpush, hpop, hlen ▸ hsp, BitVec.eq_of_toNat_eq (by omega), hvs⟩

end Sys2Proof.Machine
end

section
/-! Reset and launch (70_reset_and_hazards.md section 1, 00_scope.md section 4, 20_memory.md section 1): what the
launch state holds, that it meets the invariant, that a canonical memory is determined by its cells; and obligations O1 to O3, O42
and O44. -/

namespace Sys2Proof.Machine

/-! ### Reset -/

theorem resetWith_readReg (sp : Byte) (q : RegIndex) : (State.resetWith sp).readReg q = if q = 7 then sp else 0 := by
  fin_cases q <;> rfl

/-- Settles O1: `resetWith` writes the values out. -/
theorem resetStateValues : Obligations.ResetStateValues := by
  unfold Obligations.ResetStateValues
  exact ⟨fun sp => ⟨resetWith_readReg sp, rfl, rfl, fun _ => rfl, rfl, rfl, rfl⟩, rfl⟩

/-! ### Launch -/

theorem image_bounds_of_launch {sp : Byte} {image : List Nat} {s : State} (h : launch sp image = .ok s) :
    image.length ≤ 256 ∧ ∀ n ∈ image, n ≤ 255 := by
  unfold launch at h
  split at h
  · cases h
  · split at h
    · cases h
    · next hlen hany => exact ⟨Nat.not_lt.mp hlen, by simpa using hany⟩

/-- An image is launched exactly where it is well formed, and then its bytes are placed in the reset state. -/
theorem launch_eq_ok_iff (sp : Byte) (image : List Nat) (s : State) :
    launch sp image = .ok s ↔ (image.length ≤ 256 ∧ ∀ n ∈ image, n ≤ 255) ∧
      (State.resetWith sp).placeBytes 0 (image.map (BitVec.ofNat 8)) = s := by
  constructor
  · intro h
    obtain ⟨hlen, hval⟩ := image_bounds_of_launch h
    exact ⟨⟨hlen, hval⟩, Except.ok.inj ((launch_of_image sp hlen hval).symm.trans h)⟩
  · rintro ⟨⟨hlen, hval⟩, rfl⟩
    exact launch_of_image sp hlen hval

theorem placeBytes_eq_with_mem (s : State) (a : Nat) (bs : List Byte) :
    s.placeBytes a bs = { s with mem := (s.placeBytes a bs).mem } := by
  obtain ⟨hregs, hpc, hfl, hrun, hfault, hout⟩ := s.placeBytes_frame a bs
  rw [← hregs, ← hpc, ← hfl, ← hrun, ← hfault, ← hout]

theorem getD_zero_le {image : List Nat} (hval : ∀ n ∈ image, n ≤ 255) (k : Nat) : image.getD k 0 ≤ 255 := by
  by_cases hk : k < image.length
  · rw [List.getD_eq_getElem _ _ hk]
    exact hval _ (List.getElem_mem hk)
  · rw [List.getD_eq_default _ _ (Nat.le_of_not_lt hk)]
    exact Nat.zero_le 255

theorem placed_image_memRead (sp : Byte) {image : List Nat} (hlen : image.length ≤ 256) (hval : ∀ n ∈ image, n ≤ 255)
    (a : Byte) :
    (((State.resetWith sp).placeBytes 0 (image.map (BitVec.ofNat 8))).memRead a).toNat = image.getD a.toNat 0 := by
  have hread := (State.resetWith sp).placeBytes_memRead 0 (image.map (BitVec.ofNat 8)) a (by simpa using hlen)
  have hreset : (State.resetWith sp).memRead a = BitVec.ofNat 8 0 := rfl
  rw [hread, if_pos (Nat.zero_le _), Nat.sub_zero, hreset, List.getD_map, BitVec.toNat_ofNat]
  exact Nat.mod_eq_of_lt (Nat.lt_succ_of_le (getD_zero_le hval _))

/-- Settles O2: the launch state is the reset state with the image's bytes placed from cell 0 up. -/
theorem launchPlacesImage : Obligations.LaunchPlacesImage := by
  unfold Obligations.LaunchPlacesImage
  intro sp image hlen hval
  exact ⟨_, launch_of_image sp hlen hval, placed_image_memRead sp hlen hval, placeBytes_eq_with_mem _ _ _⟩

/-- Settles O3: there is no launch state for such an image, and every LoadError has code 4. -/
theorem launchRefusesMalformedImages : Obligations.LaunchRefusesMalformedImages := by
  unfold Obligations.LaunchRefusesMalformedImages
  intro sp image hbad
  cases h : launch sp image with
  | error e => exact ⟨e, rfl, rfl, rfl⟩
  | ok s =>
    obtain ⟨⟨hlen, hval⟩, -⟩ := (launch_eq_ok_iff sp image s).mp h
    obtain hlong | ⟨n, hn, hbig⟩ := hbad
    · exact absurd hlen (Nat.not_le.mpr hlong)
    · exact absurd (hval n hn) (Nat.not_le.mpr hbig)

theorem placed_inv (sp : Byte) (bs : List Byte) : Inv ((State.resetWith sp).placeBytes 0 bs) := by
  have hmem := State.placeBytes_wf 0 bs (Memory.wf_reset sp)
  rw [placeBytes_eq_with_mem]
  exact inv_of_fault_none hmem (Nat.zero_le 256) rfl (by rw [State.resetWith_run]; decide)

/-- Settles O42: a launch state, and reset as the one of no bytes, has canonical memory, pc 0 and no fault. -/
theorem launchMeetsInvariant : Obligations.LaunchMeetsInvariant := by
  unfold Obligations.LaunchMeetsInvariant
  refine ⟨fun sp => placed_inv sp [], fun sp image s h => ?_⟩
  obtain ⟨-, rfl⟩ := (launch_eq_ok_iff sp image s).mp h
  exact placed_inv sp _

/-! ### A canonical memory is determined by its cells -/

/-- In a canonical memory a cell reads as nothing but 0 exactly where it is listed, and then as listed. -/
theorem Memory.mem_iff_read {m : Memory} (h : m.wf) (c : Host.Cell) : c ∈ m ↔ m.read c.1 = c.2 ∧ c.2 ≠ 0 := by
  induction m with
  | nil => exact iff_of_false List.not_mem_nil fun ⟨hread, h0⟩ => h0 hread.symm
  | cons d m ih =>
    obtain ⟨hsorted, hcells⟩ := h
    obtain ⟨hd, hm⟩ := List.pairwise_cons.mp hsorted
    obtain ⟨⟨-, hd0⟩, hcells⟩ := List.forall_mem_cons.mp hcells
    rw [List.mem_cons, Memory.read]
    by_cases hdc : d.1 = c.1
    · rw [if_pos hdc]
      constructor
      · rintro (rfl | hc)
        · exact ⟨rfl, hd0⟩
        · exact absurd hdc (hd c hc).ne
      · rintro ⟨hval, -⟩
        exact .inl (Prod.ext hdc.symm hval.symm)
    · rw [if_neg hdc, ← ih ⟨hm, hcells⟩]
      exact or_iff_right fun hcd => hdc (hcd ▸ rfl)

theorem Memory.eq_of_mem_iff {m n : Memory} (hm : m.wf) (hn : n.wf) (h : ∀ c, c ∈ m ↔ c ∈ n) : m = n := by
  have : Std.Irrefl (fun c d : Host.Cell => c.1 < d.1) := ⟨fun c => Nat.lt_irrefl c.1⟩
  have : Std.Antisymm (fun c d : Host.Cell => c.1 < d.1) := ⟨fun _ _ hcd hdc => absurd hcd (Nat.lt_asymm hdc)⟩
  exact List.Pairwise.eq_of_mem_iff hm.left hn.left h

theorem Memory.subset_of_read_eq {m n : Memory} (hm : m.wf) (hn : n.wf)
    (h : ∀ a : Byte, m.read a.toNat = n.read a.toNat) {c : Host.Cell} (hc : c ∈ m) : c ∈ n := by
  have hlt : c.1 < 2 ^ 8 := (hm.right c hc).left
  have hread := h (BitVec.ofNat 8 c.1)
  rw [BitVec.toNat_ofNat, Nat.mod_eq_of_lt hlt] at hread
  rw [Memory.mem_iff_read hm, hread, ← Memory.mem_iff_read hn] at hc
  exact hc

/-- Settles O44: canonical memories whose cells agree list the same entries, and both list them in rising order. -/
theorem canonicalMemoriesWithEqualCellsAreEqual : Obligations.CanonicalMemoriesWithEqualCellsAreEqual := by
  unfold Obligations.CanonicalMemoriesWithEqualCellsAreEqual
  exact fun m n hm hn h => Memory.eq_of_mem_iff hm hn fun _ =>
    ⟨Memory.subset_of_read_eq hm hn h, Memory.subset_of_read_eq hn hm fun a => (h a).symm⟩

end Sys2Proof.Machine
end

section
/-! Text in and text out: the loader reads binary lines (30_encoding.md R100), a printed value is its shortest decimal
numeral (44_load_print.md R163); and obligations O4 and O45. -/

namespace Sys2Proof.Machine

/-! ### Lines -/

theorem splitLines_ne_nil (cs : List Char) : splitLines cs ≠ [] := by
  cases cs with
  | nil => simp [splitLines]
  | cons c cs =>
    unfold splitLines
    split
    · simp
    · split <;> simp

theorem splitLines_newline_cons (rest : List Char) : splitLines ('\n' :: rest) = [] :: splitLines rest := by
  rw [splitLines]
  split
  · exact absurd ‹_› (splitLines_ne_nil rest)
  · rw [if_pos rfl, ‹splitLines rest = _›]

/-- A text begins with the line before its first newline. -/
theorem splitLines_append_newline {line : List Char} (h : '\n' ∉ line) (rest : List Char) :
    splitLines (line ++ '\n' :: rest) = line :: splitLines rest := by
  induction line with
  | nil => exact splitLines_newline_cons rest
  | cons c line ih =>
    have hc : c ≠ '\n' := (List.ne_of_not_mem_cons h).symm
    rw [List.cons_append, splitLines, ih (List.not_mem_of_not_mem_cons h)]
    exact if_neg hc

/-! ### The eight digits of a byte -/

/-- The character of a binary digit. -/
def binaryDigit (b : Bool) : Char := if b then '1' else '0'

theorem binaryDigits_eq (b : Byte) : binaryDigits b = ((List.range 8).map b.getMsbD).map binaryDigit := by
  rw [List.map_map]
  rfl

theorem binaryDigit_cases {b : Byte} {c : Char} (h : c ∈ binaryDigits b) : c = '0' ∨ c = '1' := by
  rw [binaryDigits_eq] at h
  obtain ⟨d, -, rfl⟩ := List.mem_map.mp h
  cases d with
  | false => exact .inl rfl
  | true => exact .inr rfl

/-- The number a list of binary digits stands for, most significant first, after digits of value `acc`. -/
def bitsValue (acc : Nat) (bs : List Bool) : Nat := bs.foldl (fun n b => 2 * n + b.toNat) acc

theorem binaryValue_map_binaryDigit (acc : Nat) (bs : List Bool) :
    binaryValue acc (bs.map binaryDigit) = some (bitsValue acc bs) := by
  induction bs generalizing acc with
  | nil => rfl
  | cons b bs ih =>
    cases b with
    | false => exact ih (2 * acc)
    | true => exact ih (2 * acc + 1)

/-- The first `n` digits of a word stand for its value without its last `w - n` bits. -/
theorem bitsValue_getMsbD {w : Nat} (v : BitVec w) {n : Nat} (h : n ≤ w) :
    bitsValue 0 ((List.range n).map v.getMsbD) = v.toNat / 2 ^ (w - n) := by
  induction n with
  | zero => simp [bitsValue, Nat.div_eq_of_lt v.isLt]
  | succ n ih =>
    obtain ⟨k, rfl⟩ : ∃ k, w = n + 1 + k := Nat.exists_eq_add_of_le h
    have hbit : (v.getMsbD n).toNat = v.toNat / 2 ^ k % 2 := by
      have hk : n + 1 + k - 1 - n = k := by omega
      rw [BitVec.getMsbD_eq_getLsbD, hk, ← BitVec.testBit_toNat, decide_eq_true (by omega), Bool.true_and,
        Nat.toNat_testBit]
    have hk : n + 1 + k - n = k + 1 := by omega
    have hsplit : bitsValue 0 ((List.range (n + 1)).map v.getMsbD) =
        2 * bitsValue 0 ((List.range n).map v.getMsbD) + (v.getMsbD n).toNat := by
      simp [bitsValue, List.range_succ]
    rw [hsplit, ih (by omega), hbit, hk, Nat.add_sub_cancel_left, Nat.pow_succ, ← Nat.div_div_eq_div_mul, Nat.div_add_mod]

theorem binaryValue_binaryDigits (b : Byte) : binaryValue 0 (binaryDigits b) = some b.toNat := by
  rw [binaryDigits_eq, binaryValue_map_binaryDigit, bitsValue_getMsbD b le_rfl, Nat.sub_self, Nat.pow_zero, Nat.div_one]

/-! ### One line of a program text -/

/-- The line of a program text for one byte with a comment. -/
def programLine (l : Byte × List Char) : List Char := binaryDigits l.1 ++ [' ', '#'] ++ l.2

theorem newline_not_mem_programLine {l : Byte × List Char} (h : '\n' ∉ l.2) : '\n' ∉ programLine l := by
  have hdigits : '\n' ∉ binaryDigits l.1 := fun hmem => absurd (binaryDigit_cases hmem) (by decide)
  simp [programLine, hdigits, h]

theorem dropWhile_isWhitespace_of_forall {cs : List Char} (h : ∀ c ∈ cs, c.isWhitespace = false) :
    cs.dropWhile Char.isWhitespace = cs := by
  cases cs with
  | nil => rfl
  | cons c cs => exact List.dropWhile_cons_of_neg (by simp [h c List.mem_cons_self])

/-- Text that holds neither whitespace nor the comment sign is the significant part of its line. -/
theorem significantPart_of_comment {cs : List Char} (hcs : cs ≠ []) (hw : ∀ c ∈ cs, c.isWhitespace = false)
    (hh : '#' ∉ cs) (comment : List Char) : significantPart (cs ++ [' ', '#'] ++ comment) = cs := by
  have htake : (cs ++ [' ', '#'] ++ comment).takeWhile (· ≠ '#') = cs ++ [' '] := by
    rw [List.append_assoc, List.takeWhile_append_of_pos fun c hc => decide_eq_true (ne_of_mem_of_not_mem hc hh)]
    rfl
  have hleft : (cs ++ [' ']).dropWhile Char.isWhitespace = cs ++ [' '] := by
    rw [List.dropWhile_append, dropWhile_isWhitespace_of_forall hw, if_neg (by simpa using hcs)]
  have hright : (' ' :: cs.reverse).dropWhile Char.isWhitespace = cs.reverse := by
    rw [List.dropWhile_cons_of_pos (by decide), dropWhile_isWhitespace_of_forall (by simpa using hw)]
  rw [significantPart, htake, hleft, List.reverse_append, List.reverse_singleton, List.singleton_append, hright,
    List.reverse_reverse]

theorem significantPart_programLine (l : Byte × List Char) : significantPart (programLine l) = binaryDigits l.1 := by
  refine significantPart_of_comment (List.cons_ne_nil _ _) (fun c hc => ?_) (fun hmem => ?_) l.2
  · obtain rfl | rfl := binaryDigit_cases hc <;> decide
  · exact absurd (binaryDigit_cases hmem) (by decide)

theorem parseLines_cons {line : List Char} {rest : List (List Char)} {b : Byte} {ns : List Nat}
    (hline : significantPart line = binaryDigits b) (hrest : parseLines rest = .ok ns) :
    parseLines (line :: rest) = .ok (b.toNat :: ns) := by
  obtain ⟨c, cs, hdigits⟩ : ∃ c cs, binaryDigits b = c :: cs := ⟨_, _, rfl⟩
  have hvalue := binaryValue_binaryDigits b
  rw [hdigits] at hline hvalue
  simp only [parseLines, hline, hvalue, hrest]

theorem programText_cons (l : Byte × List Char) (lines : List (Byte × List Char)) :
    programText (l :: lines) = programLine l ++ '\n' :: programText lines := by
  simp [programText, programLine]

theorem parseLines_splitLines_programText {lines : List (Byte × List Char)} (h : ∀ l ∈ lines, '\n' ∉ l.2) :
    parseLines (splitLines (programText lines)) = .ok (lines.map fun l => l.1.toNat) := by
  induction lines with
  | nil => rfl
  | cons l lines ih =>
    obtain ⟨hl, hlines⟩ := List.forall_mem_cons.mp h
    rw [programText_cons, splitLines_append_newline (newline_not_mem_programLine hl)]
    exact parseLines_cons (significantPart_programLine l) (ih hlines)

/-- Settles O4: a text is cut into its lines, and each line's significant part is the eight digits of its byte. -/
theorem loaderReadsBinaryLines : Obligations.LoaderReadsBinaryLines := by
  unfold Obligations.LoaderReadsBinaryLines
  exact fun _ h => parseLines_splitLines_programText h

/-! ### The decimal numeral -/

theorem digitChar_ne_zero {n : Nat} (h : 0 < n) (hn : n < 10) : n.digitChar ≠ '0' := by
  interval_cases n <;> decide

/-- The numeral of a positive number has no leading zero. -/
theorem toDigits_head?_ne_zero {n : Nat} (h : 0 < n) : (Nat.toDigits 10 n).head? ≠ some '0' := by
  induction n using Nat.strongRecOn with
  | ind n ih =>
    obtain hn | hn := Nat.lt_or_ge n 10
    · rw [Nat.toDigits_of_lt_base hn]
      simpa using digitChar_ne_zero h hn
    · have hne : Nat.toDigits 10 (n / 10) ≠ [] := List.ne_nil_of_length_pos Nat.length_toDigits_pos
      rw [Nat.toDigits_of_base_le (by decide) hn, List.head?_append_of_ne_nil _ hne]
      exact ih (n / 10) (by omega) (by omega)

theorem decimalNumeral_eq_of_head? {v : Byte} (h : (decimalNumeral v).head? = some '0') : decimalNumeral v = ['0'] := by
  obtain hv | hv := Nat.eq_zero_or_pos v.toNat
  · rw [decimalNumeral, hv]
    rfl
  · exact absurd h (toDigits_head?_ne_zero hv)

/-- Settles O45: the numeral is the library's base-10 numeral, and of a positive number that has no leading zero. -/
theorem printedNumeralIsShortestDecimal : Obligations.PrintedNumeralIsShortestDecimal := by
  unfold Obligations.PrintedNumeralIsShortestDecimal
  intro v
  have hlt : v.toNat < 10 ^ 3 := v.isLt.trans (by decide)
  exact ⟨Nat.ofDigitChars_toDigits (by decide) (by decide),
    List.all_eq_true.mpr fun _ hc => Nat.isDigit_of_mem_toDigits (by decide) (by decide) hc,
    Nat.length_toDigits_pos, (Nat.length_toDigits_le_iff (by decide) (by decide)).mpr hlt, decimalNumeral_eq_of_head?⟩

end Sys2Proof.Machine
end
